-- ==== Sys2Proof/Word.lean ====
section
/-! DEFINITION. The two word types of the machine (`00_scope.md` R7: a byte is 8 bits; R5: `XLEN` is 32). -/

namespace Sys2Proof

/-- A byte of memory or of an instruction (R7). -/
abbrev Byte := BitVec 8

/-- A register, an address or an immediate: `XLEN` = 32 bits, unsigned (R5, R7). -/
abbrev Word := BitVec 32

end Sys2Proof
end

