-- ==== Sys2Proof/Syntax.lean ====
section
/-! DEFINITION. The names the spec gives: registers, formats, operation kinds, profiles, fault causes, and the
instructions themselves. -/

namespace Sys2Proof

/-- The seven registers, `10_state.md` R20 and R21: five general registers, the flag register, the instruction
pointer. The pointer is a register like the others (R8: `x[6]` and `pc` are one storage cell). -/
inductive Reg where
  | r0 | r1 | r2 | r3 | r4 | fl | ip
  deriving DecidableEq, Repr

/-- The three operand shapes, `30_encoding.md` R80. -/
inductive Format where
  | R   -- `rd`
  | RR  -- `rd`, `rs`
  | RI  -- `rd`, `imm`
  deriving DecidableEq, Repr

/-- The two encoding profiles, `00_scope.md` R5, `30_encoding.md` R94. -/
inductive Profile where
  | p5  -- 5-bit opcode, 3-bit register field
  | p4  -- 4-bit opcode, 4-bit register field
  deriving DecidableEq, Repr

/-- The closed set of 17 operation kinds, `30_encoding.md` R86, in the order of that table. -/
inductive Kind where
  | movi | mov | je | jl | addi | add | subi | sub | andi | andr | ori | orr | notr | ld | st | stf | jez
  deriving DecidableEq, Repr

/-- The fault cause, `10_state.md` R30. `none` is NONE. -/
inductive Cause where
  | none | invalidOpcode | truncatedOperand | boundsViolation
  deriving DecidableEq, Repr

/-- An instruction with its operands, one constructor per mnemonic of the opcode table. `rd` is the register of
byte 0, `rs` that of byte 1, `imm` the word in bytes 1 to 4 (`00_scope.md` R9). The two profiles share the kinds, and a
kind's meaning does not depend on the profile (`30_encoding.md` R87, R94).

`invalid` is the decoder's sentinel for a byte 0 whose opcode number has no table entry (R88): the table's rows named
"(invalid)". It keeps the byte that was read. -/
inductive Instr where
  | movi (rd : Reg) (imm : Word)
  | mov (rd rs : Reg)
  | je (rd : Reg) (imm : Word)
  | jl (rd : Reg) (imm : Word)
  | addi (rd : Reg) (imm : Word)
  | add (rd rs : Reg)
  | subi (rd : Reg) (imm : Word)
  | sub (rd rs : Reg)
  | andi (rd : Reg) (imm : Word)
  | andr (rd rs : Reg)
  | ori (rd : Reg) (imm : Word)
  | orr (rd rs : Reg)
  | notr (rd : Reg)
  | ld (rd : Reg) (imm : Word)
  | st (rd : Reg) (imm : Word)
  | stf (rd : Reg)
  | jez (rd : Reg)
  | invalid (byte0 : Byte)
  deriving DecidableEq, Repr

end Sys2Proof
end

