-- ==== Sys2Proof/Config.lean ====
section
/-! DEFINITION. The parameters of the hardware, `00_scope.md` R5, and the constraints they must meet, R6. Their default
values stand in `Decode.lean` (`Config.standard`). -/

namespace Sys2Proof

/-- The parameters of R5, every row a field, but for `PROG_LEN` and `PROG_END`, which follow from `IMAGE` and `R_BYTES`.
Sizes and bounds are natural numbers (R6: they may equal 2^32). -/
structure Config where
  /-- `XLEN`: the width of every register, of an address, of an immediate, in bits. -/
  xlen : Nat
  /-- `NREG`: the number of addressable registers. -/
  nreg : Nat
  /-- `PROFILE`. -/
  profile : Profile
  /-- `OPMAP_P5`: entry `n` is the kind of the 5-bit opcode number `n`, or nothing. -/
  opmapP5 : List (Option Kind)
  /-- `OPMAP_P4`: entry `n` is the kind of the 4-bit opcode number `n`, or nothing. -/
  opmapP4 : List (Option Kind)
  /-- `R_BYTES`: the size of the reserved region, and where the image is loaded. -/
  rBytes : Nat
  /-- `IMAGE`: the program image, byte `k` at address `R_BYTES + k`. -/
  image : List Byte
  /-- `MEM_SIZE`: the number of bytes of RAM. -/
  memSize : Nat
  /-- `MMIO_EN`: whether the device buffer exists. -/
  mmioEn : Bool
  /-- `DEV_BASE`: the lowest address routed to the device buffer. -/
  devBase : Nat
  /-- `DEV_SIZE`: the size of the device buffer in bytes. -/
  devSize : Nat
  deriving DecidableEq, Repr

/-- `PROG_LEN`, the length of the image in bytes (R5). -/
def Config.progLen (c : Config) : Nat := c.image.length

/-- `PROG_END`, the first address past the program (R5). -/
def Config.progEnd (c : Config) : Nat := c.rBytes + c.progLen

/-- The width and the number of registers that the other rules state outright: 32 bits (R7, R8, `10_state.md` R20) and
seven (R20, R21, `30_encoding.md` R83). The types `Word` and `Reg` are those of this width and number, and no rule
describes a machine with others (log entry 2). -/
abbrev Config.Described (c : Config) : Prop := c.xlen = 32 ∧ c.nreg = 7

/-- The parameters under which a step has the effect the rules give it: the registers are as described, and the image fits
RAM (R6). -/
abbrev Config.Runnable (c : Config) : Prop := c.Described ∧ c.progEnd ≤ c.memSize

/-- The constraints of R6, with the registers as described and the two opcode maps as wide as their opcode spaces
(`30_encoding.md` R81, R82). -/
def Config.valid (c : Config) : Bool :=
  decide (c.progEnd ≤ c.memSize) && decide (c.memSize ≤ 2 ^ 32) && decide (c.devBase + c.devSize ≤ 2 ^ 32) &&
    decide (c.opmapP5.length = 32) && decide (c.opmapP4.length = 16) && decide c.Described

end Sys2Proof
end

