-- ==== Sys2Proof/Decode.lean ====
section
/-! DEFINITION. The instruction decoder and the encoder, from `30_encoding.md`: fields of byte 0 (R81, R82), the
register map (R83), byte 1 (R84), the immediate (R85), the opcode maps (R86, R87), invalid and truncated encodings (R88,
R89), `Decode` (R90) and `Encode` (R98). -/

namespace Sys2Proof

/-! ### Byte order -/

/-- The word whose bytes, from the lowest address up, are `b0 b1 b2 b3` (`00_scope.md` R7, `20_memory.md` R52,
`30_encoding.md` R85). -/
def leWord (b0 b1 b2 b3 : Byte) : Word := b3 ++ b2 ++ b1 ++ b0

/-- Byte `k` (0 to 3) of a word in little-endian order: `v[8k+7:8k]` (R7). -/
def byteOf (k : Nat) (v : Word) : Byte := v.extractLsb' (8 * k) 8

/-! ### Formats and kinds -/

/-- The length of a format in bytes, R80. -/
def Format.len : Format → Nat
  | .R => 1
  | .RR => 2
  | .RI => 5

/-- The format of a kind, the format column of R86. -/
def Kind.format : Kind → Format
  | .movi | .je | .jl | .addi | .subi | .andi | .ori | .ld | .st => .RI
  | .mov | .add | .sub | .andr | .orr => .RR
  | .notr | .stf | .jez => .R

/-- The instruction of a kind with its operands; an operand the format does not have is not used (R90). -/
def Kind.build (k : Kind) (rd rs : Reg) (imm : Word) : Instr :=
  match k with
  | .movi => .movi rd imm
  | .mov => .mov rd rs
  | .je => .je rd imm
  | .jl => .jl rd imm
  | .addi => .addi rd imm
  | .add => .add rd rs
  | .subi => .subi rd imm
  | .sub => .sub rd rs
  | .andi => .andi rd imm
  | .andr => .andr rd rs
  | .ori => .ori rd imm
  | .orr => .orr rd rs
  | .notr => .notr rd
  | .ld => .ld rd imm
  | .st => .st rd imm
  | .stf => .stf rd
  | .jez => .jez rd

/-- The kind of an instruction; the sentinel has none (R88). -/
def Instr.kind? : Instr → Option Kind
  | .movi _ _ => some .movi
  | .mov _ _ => some .mov
  | .je _ _ => some .je
  | .jl _ _ => some .jl
  | .addi _ _ => some .addi
  | .add _ _ => some .add
  | .subi _ _ => some .subi
  | .sub _ _ => some .sub
  | .andi _ _ => some .andi
  | .andr _ _ => some .andr
  | .ori _ _ => some .ori
  | .orr _ _ => some .orr
  | .notr _ => some .notr
  | .ld _ _ => some .ld
  | .st _ _ => some .st
  | .stf _ => some .stf
  | .jez _ => some .jez
  | .invalid _ => none

/-- The length of an instruction in bytes: 1, 2 or 5, and 0 for the sentinel (R80, R88). -/
def Instr.len (i : Instr) : Nat :=
  match i.kind? with
  | some k => k.format.len
  | none => 0

/-! ### Register fields -/

/-- `RegMap`, R83: 0 to 6 select the register of that index, every other value `r0`. -/
def regMap (v : Nat) : Reg :=
  match v with
  | 0 => .r0
  | 1 => .r1
  | 2 => .r2
  | 3 => .r3
  | 4 => .r4
  | 5 => .fl
  | 6 => .ip
  | _ => .r0

/-- The index of a register, `10_state.md` R21. -/
def Reg.index : Reg → Nat
  | .r0 => 0
  | .r1 => 1
  | .r2 => 2
  | .r3 => 3
  | .r4 => 4
  | .fl => 5
  | .ip => 6

/-! ### Byte 0 and byte 1 -/

/-- How many opcode numbers a profile has: 32 (R81) or 16 (R82). -/
def Profile.opcodeSpace : Profile → Nat
  | .p5 => 32
  | .p4 => 16

/-- How many values the register field of byte 0 has: 8 (R81) or 16 (R82). -/
def Profile.regSpace : Profile → Nat
  | .p5 => 8
  | .p4 => 16

/-- The opcode field of byte 0: `byte0[7:3]` in P5 (R81), `byte0[7:4]` in P4 (R82). -/
def Profile.opcodeField : Profile → Byte → Nat
  | .p5, b => (b.extractLsb' 3 5).toNat
  | .p4, b => (b.extractLsb' 4 4).toNat

/-- The register field of byte 0: `byte0[2:0]` in P5 (R81), `byte0[3:0]` in P4 (R82). -/
def Profile.regField : Profile → Byte → Nat
  | .p5, b => (b.extractLsb' 0 3).toNat
  | .p4, b => (b.extractLsb' 0 4).toNat

/-- Byte 0 from its fields: `opc * 8 + rf` in P5 (R81), `opc * 16 + rf` in P4 (R82). -/
def Profile.byte0 (p : Profile) (opc rf : Nat) : Byte := BitVec.ofNat 8 (opc * p.regSpace + rf)

/-- The second register field, `byte1[3:0]` in both profiles; bits 7 to 4 take no part (R84). -/
def secondField (byte1 : Byte) : Nat := (byte1.extractLsb' 0 4).toNat

/-! ### The opcode maps -/

/-- The default `OPMAP_P5`, R86: numbers 0 to 16, then 17 to 31 without an entry. -/
def defaultOpmapP5 : List (Option Kind) :=
  [some .movi, some .mov, some .je, some .jl, some .addi, some .add, some .subi, some .sub] ++
  [some .andi, some .andr, some .ori, some .orr, some .notr, some .ld, some .st, some .stf] ++
  [some .jez] ++ List.replicate 15 none

/-- The default `OPMAP_P4`, R87: numbers 0 to 13, then 14 and 15 without an entry. -/
def defaultOpmapP4 : List (Option Kind) :=
  [some .movi, some .mov, some .jez, some .addi, some .add, some .subi, some .sub] ++
  [some .andi, some .andr, some .ori, some .orr, some .notr, some .ld, some .stf] ++
  List.replicate 2 none

/-- The opcode map of the configured profile (R94). -/
def Config.opmap (c : Config) : List (Option Kind) :=
  match c.profile with
  | .p5 => c.opmapP5
  | .p4 => c.opmapP4

/-- The kind that byte 0 selects, if its opcode number has an entry (R88, R90). -/
def Config.kindOf (c : Config) (b0 : Byte) : Option Kind :=
  (c.opmap[c.profile.opcodeField b0]?).join

/-- The opcode number of a kind in the configured profile, if it has one: the first entry that holds it. -/
def Config.opcodeOf (c : Config) (k : Kind) : Option Nat :=
  (c.opmap.take c.profile.opcodeSpace).findIdx? (fun e => e == some k)

/-- The defaults of `00_scope.md` R5, for a profile and an image: `XLEN` = 32, `NREG` = 7, `R_BYTES` = 262140, `MEM_SIZE` = `PROG_END`, `MMIO_EN`
true, `DEV_BASE` = 0xFFFF0000, `DEV_SIZE` = 0x2A00. -/
def Config.standard (p : Profile) (image : List Byte) : Config where
  xlen := 32
  nreg := 7
  profile := p
  opmapP5 := defaultOpmapP5
  opmapP4 := defaultOpmapP4
  rBytes := 262140
  image := image
  memSize := 262140 + image.length
  mmioEn := true
  devBase := 0xFFFF0000
  devSize := 0x2A00

/-! ### The decoder -/

/-- `Decode` on the bytes available at the instruction's address (R90; R175: at most five, none at or above `PROG_END`).
The length follows from byte 0 alone (R91). An opcode number without an entry gives the sentinel (R88), before any check of
the length (R89); missing operand bytes are rejected as TruncatedOperand (R89), and so is an empty list of bytes. -/
def decode (c : Config) (bytes : List Byte) : Except Cause Instr :=
  match bytes with
  | [] => .error .truncatedOperand
  | b0 :: operands =>
    match c.kindOf b0 with
    | none => .ok (.invalid b0)
    | some k =>
      match k.format, operands with
      | .R, _ => .ok (k.build (regMap (c.profile.regField b0)) .r0 0)
      | .RR, b1 :: _ => .ok (k.build (regMap (c.profile.regField b0)) (regMap (secondField b1)) 0)
      | .RI, b1 :: b2 :: b3 :: b4 :: _ =>
        .ok (k.build (regMap (c.profile.regField b0)) .r0 (leWord b1 b2 b3 b4))
      | .RR, [] => .error .truncatedOperand
      | .RI, _ => .error .truncatedOperand

/-- The outputs of the block `instruction_decoder`, R90 and R175. `kind = none` is `NOP`. -/
structure DecoderOut where
  kind : Option Kind
  rd : Reg
  rs : Reg
  imm : Word
  len : Nat
  err : Cause
  deriving DecidableEq, Repr

/-- The operand fields of a decoded instruction, 0 where its format has none (R90). -/
def Instr.fields : Instr → Reg × Reg × Word
  | .movi rd imm | .je rd imm | .jl rd imm | .addi rd imm | .subi rd imm | .andi rd imm | .ori rd imm => (rd, .r0, imm)
  | .ld rd imm | .st rd imm => (rd, .r0, imm)
  | .mov rd rs | .add rd rs | .sub rd rs | .andr rd rs | .orr rd rs => (rd, rs, 0)
  | .notr rd | .stf rd | .jez rd => (rd, .r0, 0)
  | .invalid _ => (.r0, .r0, 0)

/-- `Decode` as the tuple of R90: `(kind, rd, rs, imm, len, err)`, with `NOP` and length 0 beside an error, and `rd` read
from byte 0 wherever there is a byte 0. -/
def decoderOut (c : Config) (bytes : List Byte) : DecoderOut :=
  match bytes with
  | [] => { kind := none, rd := .r0, rs := .r0, imm := 0, len := 0, err := .truncatedOperand }
  | b0 :: _ =>
    match decode c bytes with
    | .error e => { kind := none, rd := regMap (c.profile.regField b0), rs := .r0, imm := 0, len := 0, err := e }
    | .ok i =>
      match i.kind? with
      | none =>
        { kind := none, rd := regMap (c.profile.regField b0), rs := .r0, imm := 0, len := 0, err := .invalidOpcode }
      | some k =>
        { kind := some k, rd := i.fields.1, rs := i.fields.2.1, imm := i.fields.2.2, len := i.len, err := .none }

/-! ### The encoder -/

/-- Byte 0 of a kind with the register `rd`, followed by the operand bytes; nothing if the profile does not hold the
kind (R98). -/
def Config.assemble (c : Config) (k : Kind) (rd : Reg) (operands : List Byte) : List Byte :=
  match c.opcodeOf k with
  | none => []
  | some n => c.profile.byte0 n rd.index :: operands

/-- `Encode` of an RR instruction: byte 1 is `{0000, rs}` (R98). -/
def Config.assembleRR (c : Config) (k : Kind) (rd rs : Reg) : List Byte :=
  c.assemble k rd [BitVec.ofNat 8 rs.index]

/-- `Encode` of an RI instruction: the immediate in little-endian order (R98). -/
def Config.assembleRI (c : Config) (k : Kind) (rd : Reg) (imm : Word) : List Byte :=
  c.assemble k rd [byteOf 0 imm, byteOf 1 imm, byteOf 2 imm, byteOf 3 imm]

/-- `Encode`, R98: the canonical bytes of an instruction in the configured profile. The sentinel is its own byte. -/
def encode (c : Config) (i : Instr) : List Byte :=
  match i with
  | .movi rd imm => c.assembleRI .movi rd imm
  | .mov rd rs => c.assembleRR .mov rd rs
  | .je rd imm => c.assembleRI .je rd imm
  | .jl rd imm => c.assembleRI .jl rd imm
  | .addi rd imm => c.assembleRI .addi rd imm
  | .add rd rs => c.assembleRR .add rd rs
  | .subi rd imm => c.assembleRI .subi rd imm
  | .sub rd rs => c.assembleRR .sub rd rs
  | .andi rd imm => c.assembleRI .andi rd imm
  | .andr rd rs => c.assembleRR .andr rd rs
  | .ori rd imm => c.assembleRI .ori rd imm
  | .orr rd rs => c.assembleRR .orr rd rs
  | .notr rd => c.assemble .notr rd []
  | .ld rd imm => c.assembleRI .ld rd imm
  | .st rd imm => c.assembleRI .st rd imm
  | .stf rd => c.assemble .stf rd []
  | .jez rd => c.assemble .jez rd []
  | .invalid b => [b]

/-! ### Words of the opcode table -/

/-- The five bytes, lowest address first, of a table word of `nbits` bits: bit 0 is the least significant bit of the first
byte, and every bit from `nbits` on is 0. Byte 0 always belongs to the word: the table's rows fix bits of byte 0. -/
def tableBytes (nbits w : Nat) : List Byte :=
  [0, 1, 2, 3, 4].map fun k => BitVec.ofNat 8 (w % 2 ^ max nbits 8 / 2 ^ (8 * k))

/-- The length in bytes that the default opcode map of a profile gives byte 0, 0 where it has no entry (R91). -/
def tableLen (p : Profile) (b0 : Byte) : Nat :=
  match (Config.standard p []).kindOf b0 with
  | some k => k.format.len
  | none => 0

/-- The profile a table word is read in. A byte stream cannot be told to belong to one profile (R94), and the word alone
does not name one: it is P5, but where the word is wider than byte 0 and only P4 gives byte 0 that width.
DESIGN CHOICE (log entry 5). -/
def tableProfile (nbits w : Nat) : Profile :=
  let b0 : Byte := BitVec.ofNat 8 w
  if 8 < nbits ∧ tableLen .p5 b0 * 8 ≠ nbits ∧ tableLen .p4 b0 * 8 = nbits then .p4 else .p5

/-- The instruction that the decoder reads from the table word, under the default opcode maps. -/
def decodeTableWord (nbits w : Nat) : Option Instr :=
  match decode (Config.standard (tableProfile nbits w) []) (tableBytes nbits w) with
  | .ok i => some i
  | .error _ => none

end Sys2Proof
end

