-- ==== Sys2Proof/Machine/Memory.lean ====
section
/-! DEFINITION. A byte array as a list of cells in one canonical form, with its byte and word accesses: the storage behind
RAM and the device buffer (`10_state.md` R32, R33; `20_memory.md` R52, R60, R61). -/

namespace Sys2Proof.Machine

/-- A byte array: (address, byte) pairs with strictly rising addresses, none holding the byte an unlisted address reads
as. -/
abbrev Memory := List Host.Cell

/-- What an unlisted address reads as: 0, the reset content of the reserved region, the tail and `DEV` (R35; log entry
6). -/
def Memory.unlisted : Byte := 0

/-- Read one byte. -/
def Memory.read (m : Memory) (a : Nat) : Byte :=
  match m with
  | [] => Memory.unlisted
  | (k, v) :: rest => if k = a then v else Memory.read rest a

/-- Remove the cell of an address. -/
def Memory.erase (m : Memory) (a : Nat) : Memory :=
  match m with
  | [] => []
  | (k, v) :: rest => if k = a then Memory.erase rest a else (k, v) :: Memory.erase rest a

/-- Put a cell in its place among rising addresses, replacing one of the same address. -/
def Memory.put (m : Memory) (a : Nat) (b : Byte) : Memory :=
  match m with
  | [] => [(a, b)]
  | (k, v) :: rest =>
    if k < a then (k, v) :: Memory.put rest a b
    else if k = a then (a, b) :: rest
    else (a, b) :: (k, v) :: rest

/-- Write one byte, keeping the canonical form: writing the unlisted byte removes the cell. -/
def Memory.write (m : Memory) (a : Nat) (b : Byte) : Memory :=
  if b = Memory.unlisted then m.erase a else m.put a b

/-- The canonical form from address `lo` up. -/
def Memory.wfFrom (lo : Nat) (m : Memory) : Bool :=
  match m with
  | [] => true
  | (k, v) :: rest => decide (lo ≤ k) && decide (v ≠ Memory.unlisted) && Memory.wfFrom (k + 1) rest

/-- The canonical form: addresses strictly rising, no cell holding the unlisted byte. -/
def Memory.wf (m : Memory) : Bool := Memory.wfFrom 0 m

/-- Every listed address lies below `n`: the array has `n` bytes. -/
def Memory.below (n : Nat) (m : Memory) : Bool := m.all fun cell => decide (cell.1 < n)

/-- The four bytes at `off` as a word, little-endian (R60). -/
def Memory.read32 (m : Memory) (off : Nat) : Word :=
  leWord (m.read off) (m.read (off + 1)) (m.read (off + 2)) (m.read (off + 3))

/-- Store the four bytes of `v` at `off`, in ascending address order (R61, R63). -/
def Memory.write32 (m : Memory) (off : Nat) (v : Word) : Memory :=
  (((m.write off (byteOf 0 v)).write (off + 1) (byteOf 1 v)).write (off + 2) (byteOf 2 v)).write (off + 3) (byteOf 3 v)

/-- The array that holds `bytes` from address `base` up and is unlisted elsewhere (R35, R232). -/
def Memory.load (base : Nat) (bytes : List Byte) : Memory :=
  match bytes with
  | [] => []
  | b :: rest => if b = Memory.unlisted then Memory.load (base + 1) rest else (base, b) :: Memory.load (base + 1) rest

end Sys2Proof.Machine
end

