-- ==== Sys2Proof/Machine/State.lean ====
section
/-! DEFINITION. The state of the machine (`10_state.md`), the reasons a step can stop, and the state after reset. -/

namespace Sys2Proof.Machine

/-- The two values of `run`, R29. -/
inductive Run where
  | running | halted
  deriving DecidableEq, Repr

/-- The register file, R20 and R21: seven 32-bit registers, all ordinary storage. -/
structure RegFile where
  r0 : Word
  r1 : Word
  r2 : Word
  r3 : Word
  r4 : Word
  fl : Word
  ip : Word
  deriving DecidableEq, Repr

/-- All the state there is: the registers, `run`, `cause`, RAM and the device buffer (R20 to R34). `cfg` holds the
parameters of the run, which are not state (R31): every step leaves them as they are (log entry 1). -/
structure State where
  /-- The parameters taken at reset, `00_scope.md` R5. -/
  cfg : Config
  /-- `x[0..6]`, R20. -/
  regs : RegFile
  /-- RUNNING or HALTED, R29. -/
  run : Run
  /-- The fault cause, R30. -/
  cause : Cause
  /-- RAM, R32, by address. -/
  ram : Memory
  /-- The device buffer `DEV`, R33, by offset. -/
  dev : Memory
  deriving DecidableEq, Repr

/-- Why the model stops. The three faults of the spec are no stops: they are next states (`60_exceptions.md` R206). -/
inductive Fault where
  /-- Raised by `step` alone, when the parameter `XLEN` is not 32 or `NREG` is not 7: the rules state both numbers outright
  (`10_state.md` R20) and describe no machine with others. Safe (log entry 2). -/
  | registersNotDescribed
  /-- Raised by `step` alone, when the parameters break `00_scope.md` R6 by `PROG_END > MEM_SIZE`: a fetch could then read
  a RAM address that does not exist. Safe: no configuration the spec admits raises it (log entry 7). -/
  | imageOutsideRam
  deriving DecidableEq, Repr

/-- Why the model gives an instruction no meaning. No arm of `exec` answers with it. -/
inductive Refusal where
  /-- Reserved for an arm of `exec` whose instruction has no meaning yet. Raised by none. Safe. -/
  | notModelled (mnemonic : String)
  deriving DecidableEq, Repr

/-- The state after a reset with the parameters `c`, R35 and `70_reset_and_hazards.md` R230: every register 0 but `ip`
= `R_BYTES`, RUNNING, NONE, RAM zeros but for the image at `R_BYTES`, `DEV` zeros. -/
def State.boot (c : Config) : State where
  cfg := c
  regs := { r0 := 0, r1 := 0, r2 := 0, r3 := 0, r4 := 0, fl := 0, ip := BitVec.ofNat 32 c.rBytes }
  run := .running
  cause := .none
  ram := Memory.load c.rBytes c.image
  dev := []

/-- The machine right after a reset with the default parameters, profile P5 and the empty image (log entries 3 and 4). -/
def State.reset : State := State.boot (Config.standard .p5 [])

end Sys2Proof.Machine
end

