-- ==== Sys2Proof/Machine/Flags.lean ====
section
/-! DEFINITION. The machine has no flags and no condition codes (`10_state.md` R28): nothing is remembered from an earlier
instruction. What stands here are the comparisons a conditional jump makes when it executes (`45_step_and_blocks.md`
R177, output `take`). -/

namespace Sys2Proof.Machine

/-- CMPEQ, R177: the equality of JE (`41_jump.md` R120) and, against 0, of JEZ (R122). -/
def cmpEq (a b : Word) : Bool := a == b

/-- CMPLTU, R177: the strict unsigned less-than of JL (R121). -/
def cmpLtU (a b : Word) : Bool := decide (a.toNat < b.toNat)

end Sys2Proof.Machine
end

