-- ==== Sys2Proof/Machine/AluEngine.lean ====
section
/-! DEFINITION. The block `alu_engine`, `45_step_and_blocks.md` R177: a pure function of an operator and two words. -/

namespace Sys2Proof.Machine

/-- The operators of R177. -/
inductive AluOp where
  | passB | add | sub | and | or | not | cmpEq | cmpLtU
  deriving DecidableEq, Repr

/-- The outputs of R177: `y`, the register write data, and `take`, the jump decision. -/
structure AluOut where
  y : Word
  take : Bool
  deriving DecidableEq, Repr

/-- The table of R177. Addition and subtraction are modulo 2^32 (`42_alu.md` R140). The comparisons leave `y` unused, and
this function puts the left operand there. -/
def aluEngine (op : AluOp) (a b : Word) : AluOut :=
  match op with
  | .passB => { y := b, take := false }
  | .add => { y := a + b, take := false }
  | .sub => { y := a - b, take := false }
  | .and => { y := a &&& b, take := false }
  | .or => { y := a ||| b, take := false }
  | .not => { y := ~~~a, take := false }
  | .cmpEq => { y := a, take := Sys2Proof.Machine.cmpEq a b }
  | .cmpLtU => { y := a, take := Sys2Proof.Machine.cmpLtU a b }

end Sys2Proof.Machine
end

