-- ==== Sys2Proof/Machine/Operands.lean ====
section
/-! DEFINITION. Operands: the registers as `rd` and `rs`, the implicit operand `fl`, and the two addressing modes
(`10_state.md` R20 to R24, `43_load_store.md` R153). -/

namespace Sys2Proof.Machine

/-- `x[r]`, `00_scope.md` R8. Reading `ip` gives the address of the instruction being executed (`10_state.md` R24). -/
def State.x (s : State) (r : Reg) : Word :=
  match r with
  | .r0 => s.regs.r0
  | .r1 => s.regs.r1
  | .r2 => s.regs.r2
  | .r3 => s.regs.r3
  | .r4 => s.regs.r4
  | .fl => s.regs.fl
  | .ip => s.regs.ip

/-- `x[r] <- v`, R8. No register is hardwired (R20). -/
def State.setX (s : State) (r : Reg) (v : Word) : State :=
  match r with
  | .r0 => { s with regs := { s.regs with r0 := v } }
  | .r1 => { s with regs := { s.regs with r1 := v } }
  | .r2 => { s with regs := { s.regs with r2 := v } }
  | .r3 => { s with regs := { s.regs with r3 := v } }
  | .r4 => { s with regs := { s.regs with r4 := v } }
  | .fl => { s with regs := { s.regs with fl := v } }
  | .ip => { s with regs := { s.regs with ip := v } }

/-- The address of the absolute mode: the immediate as given (R153; LD and ST). -/
def absoluteAddress (imm : Word) : Word := imm

/-- The address of the flag-register indirect mode: the value of `fl` (R153; STF). -/
def flagAddress (s : State) : Word := s.x .fl

end Sys2Proof.Machine
end

