-- ==== Sys2Proof/Machine/Ops.lean ====
section
/-! DEFINITION. The operations every meaning is built from: address translation and data access (`20_memory.md` R56 to
R61), instruction fetch (R62), the entry of a fault (`60_exceptions.md` R206), the normal halt and the retirement of an
applied instruction (`45_step_and_blocks.md` R170, R176). There is no return from a fault (R207), so no operation for
one. -/

namespace Sys2Proof.Machine

/-! ### Faults, halt, reset -/

/-- `raise F`, R206: the cause is recorded and the machine halts; nothing else changes. -/
def State.raise (s : State) (f : Cause) : State := { s with cause := f, run := .halted }

/-- The normal end, R170: `run` becomes HALTED, `cause` stays as it is. -/
def State.haltNormally (s : State) : State := { s with run := .halted }

/-- Reset at any time, with new parameters: all state is discarded (`70_reset_and_hazards.md` R230; a host action, no
step). -/
def State.hostReset (_ : State) (c : Config) : State := State.boot c

/-! ### Data access -/

/-- The two storage arrays, `20_memory.md` R50. -/
inductive Region where
  | ram | dev
  deriving DecidableEq, Repr

/-- The array of a region. -/
def State.array (s : State) (r : Region) : Memory :=
  match r with
  | .ram => s.ram
  | .dev => s.dev

/-- Replace the array of a region. -/
def State.setArray (s : State) (r : Region) (m : Memory) : State :=
  match r with
  | .ram => { s with ram := m }
  | .dev => { s with dev := m }

/-- `Translate`, R56 (the block `memory_address_translator`, R178): the array and offset of a 4-byte access at `a`, or
nothing where it is out of bounds. All comparisons are in unbounded arithmetic. -/
def translateAddr (c : Config) (a : Word) : Option (Region × Nat) :=
  if c.mmioEn = true ∧ c.devBase ≤ a.toNat then
    if a.toNat - c.devBase + 4 ≤ c.devSize then some (.dev, a.toNat - c.devBase) else none
  else
    if a.toNat + 4 ≤ c.memSize then some (.ram, a.toNat) else none

/-- `MemRead(a, 4)`, R60; nothing where it raises BoundsViolation. -/
def memRead (s : State) (a : Word) : Option Word :=
  match translateAddr s.cfg a with
  | some (r, off) => some ((s.array r).read32 off)
  | none => none

/-- `MemWrite(a, 4, v)`, R61; nothing where it raises BoundsViolation, and then no byte is written. -/
def memWrite (s : State) (a v : Word) : Option State :=
  match translateAddr s.cfg a with
  | some (r, off) => some (s.setArray r ((s.array r).write32 off v))
  | none => none

/-! ### Fetch -/

/-- `Fetch(a)`, R62: a byte of RAM, untranslated. -/
def fetchByte (s : State) (a : Nat) : Byte := s.ram.read a

/-- How many bytes the decoder may read at `pc`: `min(5, PROG_END - pc)` (R175). -/
def State.avail (s : State) : Nat := min 5 (s.cfg.progEnd - (s.x .ip).toNat)

/-- The bytes presented to the decoder, in ascending address order (R53, R175). -/
def fetchBytes (s : State) : List Byte := (List.range s.avail).map fun k => fetchByte s ((s.x .ip).toNat + k)

/-- `Decode(pc)`, R90. -/
def decodeAt (s : State) : Except Cause Instr := decode s.cfg (fetchBytes s)

/-- The end of the program is reached, R170: `pc >= PROG_END`, in unbounded arithmetic. -/
def State.atEnd (s : State) : Bool := decide (s.cfg.progEnd ≤ (s.x .ip).toNat)

/-! ### Apply and retire -/

/-- What applying an instruction gives, R171: a state with `branched`, or a fault. -/
inductive Applied where
  /-- Applied, `branched = false`. -/
  | plain (s : State)
  /-- Applied, `branched = true`. -/
  | branched (s : State)
  /-- A fault was raised. -/
  | raised (f : Cause)
  deriving DecidableEq, Repr

/-- `pc <- pc +w len`, R25: the advance acts on the value `ip` has after the instruction's own write (R27). -/
def State.advance (s : State) (len : Nat) : State := s.setX .ip (s.x .ip + BitVec.ofNat 32 len)

/-- The end of a step that applied an instruction of length `len` to `s`, R170: advance unless branched; a fault discards
whatever was computed and changes `s` by the fault entry alone. -/
def retire (s : State) (len : Nat) (a : Applied) : Host.Outcome State Fault Refusal :=
  match a with
  | .plain t => .next (t.advance len)
  | .branched t => .next t
  | .raised f => .next (s.raise f)

/-- The register write of an instruction's result, R176 (1). -/
def applyResult (s : State) (rd : Reg) (v : Word) : Applied := .plain (s.setX rd v)

/-- A conditional jump: `pc <- target` and `branched` when taken, no change otherwise (`41_jump.md` R120 to R122). -/
def applyJump (s : State) (take : Bool) (target : Word) : Applied :=
  match take with
  | true => .branched (s.setX .ip target)
  | false => .plain s

/-- A load into `rd` from the address `a` (`43_load_store.md` R150). -/
def applyLoad (s : State) (rd : Reg) (a : Word) : Applied :=
  match memRead s a with
  | some v => .plain (s.setX rd v)
  | none => .raised .boundsViolation

/-- A store of `v` to the address `a` (R151, R152). -/
def applyStore (s : State) (a v : Word) : Applied :=
  match memWrite s a v with
  | some t => .plain t
  | none => .raised .boundsViolation

/-! ### Observation -/

/-- What the host sees between steps, R70 and R180: `run`, `cause`, the registers, a snapshot of `DEV`. -/
structure Observation where
  run : Run
  cause : Cause
  regs : RegFile
  dev : Memory
  deriving DecidableEq, Repr

/-- The read-only snapshot of R180 and R181. -/
def State.observe (s : State) : Observation := { run := s.run, cause := s.cause, regs := s.regs, dev := s.dev }

/-- The numeric code of a cause, `10_state.md` R30. -/
def causeCode : Cause → BitVec 2
  | .none => 0
  | .invalidOpcode => 1
  | .truncatedOperand => 2
  | .boundsViolation => 3

/-- The glyph byte of cell `k` of the device buffer, `20_memory.md` R71. -/
def State.glyph (s : State) (k : Nat) : Byte := s.dev.read (2 * k)

/-- The colour byte of cell `k`, R71. -/
def State.colour (s : State) (k : Nat) : Byte := s.dev.read (2 * k + 1)

/-- The foreground colour index of a colour byte: its high nibble (R71). -/
def foreground (colour : Byte) : BitVec 4 := colour.extractLsb' 4 4

/-- The background colour index of a colour byte: its low nibble (R71). -/
def background (colour : Byte) : BitVec 4 := colour.extractLsb' 0 4

end Sys2Proof.Machine
end

