-- ==== Sys2Proof/Machine/Alu.lean ====
section
/-! DEFINITION. The arithmetic and logic instructions, `42_alu.md`. Both operands are read before the write (R130). -/

namespace Sys2Proof.Machine

/-- ADDI `rd`, `imm`, R131: `x[rd] <- x[rd] +w imm`. -/
def execAddi (rd : Reg) (imm : Word) (s : State) : Host.Outcome State Fault Refusal :=
  retire s Format.RI.len (applyResult s rd (aluEngine .add (s.x rd) imm).y)

/-- ADD `rd`, `rs`, R132: `x[rd] <- x[rd] +w x[rs]`. -/
def execAdd (rd rs : Reg) (s : State) : Host.Outcome State Fault Refusal :=
  retire s Format.RR.len (applyResult s rd (aluEngine .add (s.x rd) (s.x rs)).y)

/-- SUBI `rd`, `imm`, R133: `x[rd] <- x[rd] -w imm`. -/
def execSubi (rd : Reg) (imm : Word) (s : State) : Host.Outcome State Fault Refusal :=
  retire s Format.RI.len (applyResult s rd (aluEngine .sub (s.x rd) imm).y)

/-- SUB `rd`, `rs`, R134: `x[rd] <- x[rd] -w x[rs]`. -/
def execSub (rd rs : Reg) (s : State) : Host.Outcome State Fault Refusal :=
  retire s Format.RR.len (applyResult s rd (aluEngine .sub (s.x rd) (s.x rs)).y)

/-- ANDI `rd`, `imm`, R135: `x[rd] <- x[rd] & imm`. -/
def execAndi (rd : Reg) (imm : Word) (s : State) : Host.Outcome State Fault Refusal :=
  retire s Format.RI.len (applyResult s rd (aluEngine .and (s.x rd) imm).y)

/-- AND `rd`, `rs`, R136: `x[rd] <- x[rd] & x[rs]`. -/
def execAndr (rd rs : Reg) (s : State) : Host.Outcome State Fault Refusal :=
  retire s Format.RR.len (applyResult s rd (aluEngine .and (s.x rd) (s.x rs)).y)

/-- ORI `rd`, `imm`, R137: `x[rd] <- x[rd] | imm`. -/
def execOri (rd : Reg) (imm : Word) (s : State) : Host.Outcome State Fault Refusal :=
  retire s Format.RI.len (applyResult s rd (aluEngine .or (s.x rd) imm).y)

/-- OR `rd`, `rs`, R138: `x[rd] <- x[rd] | x[rs]`. -/
def execOrr (rd rs : Reg) (s : State) : Host.Outcome State Fault Refusal :=
  retire s Format.RR.len (applyResult s rd (aluEngine .or (s.x rd) (s.x rs)).y)

/-- NOT `rd`, R139: `x[rd] <- ~x[rd]`. The engine's right operand is unused. -/
def execNotr (rd : Reg) (s : State) : Host.Outcome State Fault Refusal :=
  retire s Format.R.len (applyResult s rd (aluEngine .not (s.x rd) 0).y)

end Sys2Proof.Machine
end

