-- ==== Sys2Proof/Machine/Invalid.lean ====
section
/-! DEFINITION. The bytes that select no instruction, `30_encoding.md` R88. -/

namespace Sys2Proof.Machine

/-- A byte 0 whose opcode number has no entry, `60_exceptions.md` R202: the InvalidOpcode fault, with nothing changed but
`run` and `cause` (R206). The byte takes no further part. -/
def execInvalid (_byte0 : Byte) (s : State) : Host.Outcome State Fault Refusal :=
  .next (s.raise .invalidOpcode)

end Sys2Proof.Machine
end

