-- ==== Sys2Proof/Machine/Jump.lean ====
section
/-! DEFINITION. The jump instructions, `41_jump.md`. Targets are absolute and never checked (R123). -/

namespace Sys2Proof.Machine

/-- JE `rd`, `imm`, R120: jump if `x[rd] = x[5]`. -/
def execJe (rd : Reg) (imm : Word) (s : State) : Host.Outcome State Fault Refusal :=
  retire s Format.RI.len (applyJump s (aluEngine .cmpEq (s.x rd) (s.x .fl)).take imm)

/-- JL `rd`, `imm`, R121: jump if `x[rd] < x[5]`, unsigned. -/
def execJl (rd : Reg) (imm : Word) (s : State) : Host.Outcome State Fault Refusal :=
  retire s Format.RI.len (applyJump s (aluEngine .cmpLtU (s.x rd) (s.x .fl)).take imm)

/-- JEZ `rd`, R122: jump to the address in `fl` if `x[rd] = 0`. -/
def execJez (rd : Reg) (s : State) : Host.Outcome State Fault Refusal :=
  retire s Format.R.len (applyJump s (aluEngine .cmpEq (s.x rd) 0).take (s.x .fl))

end Sys2Proof.Machine
end

