-- ==== Sys2Proof/Machine/LoadStore.lean ====
section
/-! DEFINITION. The load and store instructions, `43_load_store.md`. -/

namespace Sys2Proof.Machine

/-- LD `rd`, `imm`, R150: `x[rd] <- MemRead(imm, 4)`. -/
def execLd (rd : Reg) (imm : Word) (s : State) : Host.Outcome State Fault Refusal :=
  retire s Format.RI.len (applyLoad s rd (absoluteAddress imm))

/-- ST `rd`, `imm`, R151: `MemWrite(imm, 4, x[rd])`. -/
def execSt (rd : Reg) (imm : Word) (s : State) : Host.Outcome State Fault Refusal :=
  retire s Format.RI.len (applyStore s (absoluteAddress imm) (s.x rd))

/-- STF `rd`, R152: `MemWrite(x[5], 4, x[rd])`. -/
def execStf (rd : Reg) (s : State) : Host.Outcome State Fault Refusal :=
  retire s Format.R.len (applyStore s (flagAddress s) (s.x rd))

end Sys2Proof.Machine
end

