-- ==== Sys2Proof/Machine/Move.lean ====
section
/-! DEFINITION. The move instructions, `40_move.md`. -/

namespace Sys2Proof.Machine

/-- MOVI `rd`, `imm`, R110: `x[rd] <- imm`. -/
def execMovi (rd : Reg) (imm : Word) (s : State) : Host.Outcome State Fault Refusal :=
  retire s Format.RI.len (applyResult s rd (aluEngine .passB (s.x rd) imm).y)

/-- MOV `rd`, `rs`, R111: `x[rd] <- x[rs]`. -/
def execMov (rd rs : Reg) (s : State) : Host.Outcome State Fault Refusal :=
  retire s Format.RR.len (applyResult s rd (aluEngine .passB (s.x rd) (s.x rs)).y)

end Sys2Proof.Machine
end

