-- ==== Sys2Proof/Machine/Dispatch.lean ====
section
/-! DEFINITION. One arm per instruction (`45_step_and_blocks.md` R171), each with the end of its step: the advance of the
pointer or the fault entry (R170). -/

namespace Sys2Proof.Machine

/-- Apply an instruction and end its step, R170 and R171. -/
def exec (i : Instr) (s : State) : Host.Outcome State Fault Refusal :=
  match i with
  | .movi rd imm => Sys2Proof.Machine.execMovi rd imm s
  | .mov rd rs => Sys2Proof.Machine.execMov rd rs s
  | .je rd imm => Sys2Proof.Machine.execJe rd imm s
  | .jl rd imm => Sys2Proof.Machine.execJl rd imm s
  | .addi rd imm => Sys2Proof.Machine.execAddi rd imm s
  | .add rd rs => Sys2Proof.Machine.execAdd rd rs s
  | .subi rd imm => Sys2Proof.Machine.execSubi rd imm s
  | .sub rd rs => Sys2Proof.Machine.execSub rd rs s
  | .andi rd imm => Sys2Proof.Machine.execAndi rd imm s
  | .andr rd rs => Sys2Proof.Machine.execAndr rd rs s
  | .ori rd imm => Sys2Proof.Machine.execOri rd imm s
  | .orr rd rs => Sys2Proof.Machine.execOrr rd rs s
  | .notr rd => Sys2Proof.Machine.execNotr rd s
  | .ld rd imm => Sys2Proof.Machine.execLd rd imm s
  | .st rd imm => Sys2Proof.Machine.execSt rd imm s
  | .stf rd => Sys2Proof.Machine.execStf rd s
  | .jez rd => Sys2Proof.Machine.execJez rd s
  | .invalid byte0 => Sys2Proof.Machine.execInvalid byte0 s

end Sys2Proof.Machine
end

