-- ==== Sys2Proof/Machine/Step.lean ====
section
/-! DEFINITION. The step of the machine (`45_step_and_blocks.md` R170), and how a word of the opcode table is placed where
the next step fetches. -/

namespace Sys2Proof.Machine

/-- `Step`, R170, with the priority of `60_exceptions.md` R205: halted, end of program, decode faults, the instruction.
The model stops only under parameters that no rule describes: registers of another width or number (log entry 2), or an
image that does not fit RAM, which `00_scope.md` R6 forbids (log entry 7). -/
def step (s : State) : Host.Outcome State Fault Refusal :=
  match s.run with
  | .halted => .next s
  | .running =>
    if ¬ s.cfg.Described then .fault .registersNotDescribed
    else if s.atEnd = true then .next s.haltNormally
    else if s.cfg.memSize < s.cfg.progEnd then .fault .imageOutsideRam
    else
      match decodeAt s with
      | .error f => .next (s.raise f)
      | .ok i => exec i s

/-- The parameters under which a table word is fetched at `pc`: the described registers, the profile the word is read in and its default opcode map,
and an image that is the program region of `ram`, long enough for five bytes at `pc`, in a RAM that holds it. -/
def tableConfig (c : Config) (nbits w pc : Nat) (ram : Memory) : Config :=
  let n := max c.progLen (pc + 5 - c.rBytes)
  { c with
    xlen := 32
    nreg := 7
    profile := tableProfile nbits w
    opmapP5 := defaultOpmapP5
    opmapP4 := defaultOpmapP4
    image := (List.range n).map fun k => ram.read (c.rBytes + k)
    memSize := max c.memSize (c.rBytes + n) }

/-- `s` with the five bytes of a table word at `ip`, as the host's loader would have put them there: RAM, the image and the
parameters that depend on it, the profile the word is read in, and the machine RUNNING (log entry 13). -/
def State.withFetchWord (s : State) (nbits w : Nat) : State :=
  let pc := (s.x .ip).toNat
  let ram := (tableBytes nbits w).zipIdx.foldl (fun m p => m.write (pc + p.2) p.1) s.ram
  { s with cfg := tableConfig s.cfg nbits w pc ram, ram := ram, run := .running, cause := .none }

end Sys2Proof.Machine
end

