-- ==== Sys2Proof/WellFormed.lean ====
section
/-! DEFINITION. Which instructions exist under a configuration: those the decoder can give (`30_encoding.md` R86 to R88).
Register operands and immediates are well formed by their types. -/

namespace Sys2Proof

/-- The configured profile's map holds the kind (R86, R87). -/
def Config.holds (c : Config) (k : Kind) : Bool := (c.opcodeOf k).isSome

/-- The byte's opcode number has no entry in the configured profile's map (R88). -/
def Config.unassigned (c : Config) (b : Byte) : Bool := (c.kindOf b).isNone

/-- Well-formedness of an instruction: its kind is in the profile (JE, JL and ST are not in P4, R87), and the sentinel
stands only for a byte that selects no kind (R88). -/
def Instr.wf (c : Config) : Instr → Bool
  | .movi _ _ => c.holds .movi
  | .mov _ _ => c.holds .mov
  | .je _ _ => c.holds .je
  | .jl _ _ => c.holds .jl
  | .addi _ _ => c.holds .addi
  | .add _ _ => c.holds .add
  | .subi _ _ => c.holds .subi
  | .sub _ _ => c.holds .sub
  | .andi _ _ => c.holds .andi
  | .andr _ _ => c.holds .andr
  | .ori _ _ => c.holds .ori
  | .orr _ _ => c.holds .orr
  | .notr _ => c.holds .notr
  | .ld _ _ => c.holds .ld
  | .st _ _ => c.holds .st
  | .stf _ => c.holds .stf
  | .jez _ => c.holds .jez
  | .invalid b => c.unassigned b

end Sys2Proof
end

