-- ==== Sys2Proof/Safety.lean ====
section
/-! DEFINITION. The terms in which claims are made: what a step may have changed, the invariant of the machine, runs and
their ends, and what it means that a byte sequence encodes an instruction. -/

namespace Sys2Proof.Machine

/-! ### What an instruction changes -/

/-- The parameters, `run` and `cause` are unchanged. -/
def StatusKept (s t : State) : Prop := t.cfg = s.cfg ∧ t.run = s.run ∧ t.cause = s.cause

/-- Every byte of RAM and of the device buffer reads as before. -/
def MemoryKept (s t : State) : Prop := ∀ (g : Region) (a : Nat), (t.array g).read a = (s.array g).read a

/-- `t` is `s` after a non-jump instruction of `len` bytes that wrote `v` to `rd` (`10_state.md` R25, R27): if `rd` is `ip`
the advance acts on the value written, every other register keeps its value, and so does everything else. -/
def ResultIn (s t : State) (rd : Reg) (v : Word) (len : Nat) : Prop :=
  t.x .ip = (if rd = .ip then v else s.x .ip) + BitVec.ofNat 32 len ∧
    (rd ≠ .ip → t.x rd = v) ∧
    (∀ r, r ≠ rd → r ≠ .ip → t.x r = s.x r) ∧ StatusKept s t ∧ MemoryKept s t

/-- `t` is `s` with the pointer at `target` and nothing else changed. -/
def PointerAt (s t : State) (target : Word) : Prop :=
  t.x .ip = target ∧ (∀ r, r ≠ .ip → t.x r = s.x r) ∧ StatusKept s t ∧ MemoryKept s t

/-- `t` is `s` after a store instruction of `len` bytes that wrote the four bytes of `v`, little-endian, at `off` of the
array `g`: no register but the pointer, and no other byte of either array, changed. -/
def StoredWord (s t : State) (g : Region) (off : Nat) (v : Word) (len : Nat) : Prop :=
  t.x .ip = s.x .ip + BitVec.ofNat 32 len ∧
    (∀ r, r ≠ .ip → t.x r = s.x r) ∧ StatusKept s t ∧
    (∀ k, k < 4 → (t.array g).read (off + k) = byteOf k v) ∧
    (∀ (h : Region) (a : Nat), ¬(h = g ∧ off ≤ a ∧ a < off + 4) → (t.array h).read a = (s.array h).read a)

/-- `t` is `s` after the entry of the fault `f` (`60_exceptions.md` R206). -/
def FaultEntered (s t : State) (f : Cause) : Prop :=
  t.cause = f ∧ t.run = .halted ∧ t.cfg = s.cfg ∧ (∀ r, t.x r = s.x r) ∧ MemoryKept s t

/-- The register an instruction writes as its result (`10_state.md` R22, `45_step_and_blocks.md` R176). -/
def destination : Instr → Option Reg
  | .movi rd _ | .mov rd _ | .addi rd _ | .add rd _ | .subi rd _ | .sub rd _ => some rd
  | .andi rd _ | .andr rd _ | .ori rd _ | .orr rd _ | .notr rd | .ld rd _ => some rd
  | .je _ _ | .jl _ _ | .jez _ | .st _ _ | .stf _ | .invalid _ => none

/-- The address an instruction stores to (R151, R152). -/
def storeAddress (s : State) : Instr → Option Word
  | .st _ imm => some (absoluteAddress imm)
  | .stf _ => some (flagAddress s)
  | _ => none

/-- The address of an instruction's data access (R150 to R152). -/
def dataAddress (s : State) : Instr → Option Word
  | .ld _ imm => some (absoluteAddress imm)
  | i => storeAddress s i

/-! ### The invariant -/

/-- What every step keeps: the parameters meet `Config.valid` (`00_scope.md` R6), both arrays are in canonical form
and hold no byte outside their size, there is no device buffer without `MMIO_EN` (`10_state.md` R33), and RUNNING implies NONE (R30). -/
abbrev State.Inv (s : State) : Prop :=
  s.cfg.valid = true ∧ s.ram.wf = true ∧ s.ram.below s.cfg.memSize = true ∧ s.dev.wf = true ∧
    s.dev.below s.cfg.devSize = true ∧ (s.cfg.mmioEn = false → s.dev = []) ∧ (s.run = .running → s.cause = .none)

/-! ### Runs and their ends -/

/-- `k` steps lead from `s` to `t` (R238: the sequence of states produced by repeated `Step`). -/
def RunsTo (k : Nat) (s t : State) : Prop :=
  match k with
  | 0 => s = t
  | k + 1 => ∃ u, step s = .next u ∧ RunsTo k u t

/-- Run-until-halted, `45_step_and_blocks.md` R181: `while run = RUNNING do Step()`, for at most `fuel` steps, since the
loop need not end. -/
def runUntilHalted (fuel : Nat) (s : State) : Host.Outcome State Fault Refusal :=
  match fuel, s.run with
  | 0, _ => .next s
  | _ + 1, .halted => .next s
  | fuel + 1, .running =>
    match step s with
    | .next t => runUntilHalted fuel t
    | .fault r => .fault r
    | .refused r => .refused r

/-- The run has ended (`70_reset_and_hazards.md` R238). -/
def Ended (s : State) : Prop := s.run = .halted

/-- The run has ended normally, R238: this is a safe run. -/
def EndedNormally (s : State) : Prop := s.run = .halted ∧ s.cause = .none

/-- The run has ended in a fault, R238. -/
def EndedInFault (s : State) : Prop := s.run = .halted ∧ s.cause ≠ .none

/-- `s` under another profile and other opcode maps. -/
def State.recoded (s : State) (p : Profile) (m5 m4 : List (Option Kind)) : State :=
  { s with cfg := { s.cfg with profile := p, opmapP5 := m5, opmapP4 := m4 } }

/-! ### Encodings as the instruction rules give them -/

/-- Under the default opcode map of `p`, byte 0 = `base + rf` alone decodes to the R-format instruction `mk`. -/
def EncodesR (p : Profile) (base : Nat) (mk : Reg → Instr) : Prop :=
  ∀ (image : List Byte) (rf : Nat) (rest : List Byte), rf < p.regSpace →
    decode (Config.standard p image) (BitVec.ofNat 8 (base + rf) :: rest) = .ok (mk (regMap rf))

/-- Under the default opcode map of `p`, byte 0 = `base + rf` and a byte 1 with low nibble `sf` decode to the RR-format
instruction `mk`, whatever the high nibble. -/
def EncodesRR (p : Profile) (base : Nat) (mk : Reg → Reg → Instr) : Prop :=
  ∀ (image : List Byte) (rf sf high : Nat) (rest : List Byte), rf < p.regSpace → sf < 16 → high < 16 →
    decode (Config.standard p image) (BitVec.ofNat 8 (base + rf) :: BitVec.ofNat 8 (16 * high + sf) :: rest) =
      .ok (mk (regMap rf) (regMap sf))

/-- Under the default opcode map of `p`, byte 0 = `base + rf` and the four bytes of `imm`, little-endian, decode to the
RI-format instruction `mk`. -/
def EncodesRI (p : Profile) (base : Nat) (mk : Reg → Word → Instr) : Prop :=
  ∀ (image : List Byte) (rf : Nat) (imm : Word) (rest : List Byte), rf < p.regSpace →
    decode (Config.standard p image)
        (BitVec.ofNat 8 (base + rf) :: byteOf 0 imm :: byteOf 1 imm :: byteOf 2 imm :: byteOf 3 imm :: rest) =
      .ok (mk (regMap rf) imm)

/-- No byte 0 selects the kind under the default opcode map of `p`. -/
def NotInProfile (p : Profile) (k : Kind) : Prop :=
  ∀ (image : List Byte) (b : Byte), (Config.standard p image).kindOf b ≠ some k

end Sys2Proof.Machine
end

