-- ==== Sys2Proof/Certificates/Slice0/Obligations.lean ====
section
/-! DEFINITION. The statements about the model, for the provers. Each docstring names the rule of spec/ it formalises. The
opcode numbers, and every other default value, are those the rules give (`92_eei_decisions.md` D3, D4, D12, D13, D30). -/

open Sys2Proof Sys2Proof.Machine

/-! ### Encoding -/

/-- `30_encoding.md` R81, R82: byte 0 in each profile, its fields read and put together. -/
def Obligations.ByteZeroFields : Prop :=
  (∀ b : Byte, Profile.p5.opcodeField b = b.toNat / 8 ∧ Profile.p5.regField b = b.toNat % 8 ∧
    b.toNat = Profile.p5.opcodeField b * 8 + Profile.p5.regField b) ∧
  (∀ b : Byte, Profile.p4.opcodeField b = b.toNat / 16 ∧ Profile.p4.regField b = b.toNat % 16 ∧
    b.toNat = Profile.p4.opcodeField b * 16 + Profile.p4.regField b) ∧
  (∀ opc rf : Nat, opc < 32 → rf < 8 → (Profile.p5.byte0 opc rf).toNat = opc * 8 + rf) ∧
  (∀ opc rf : Nat, opc < 16 → rf < 16 → (Profile.p4.byte0 opc rf).toNat = opc * 16 + rf)

/-- R83: the register map, with the register field of byte 0 through it in every answer of the decoder and the second field
through it in every RR instruction, in both profiles. -/
def Obligations.RegisterMap : Prop :=
  regMap 0 = .r0 ∧ regMap 1 = .r1 ∧ regMap 2 = .r2 ∧ regMap 3 = .r3 ∧ regMap 4 = .r4 ∧ regMap 5 = .fl ∧ regMap 6 = .ip ∧
  (∀ v, 7 ≤ v → regMap v = .r0) ∧
  (∀ (c : Config) (b0 : Byte) (rest : List Byte), (decoderOut c (b0 :: rest)).rd = regMap (c.profile.regField b0)) ∧
  (∀ (c : Config) (b0 b1 : Byte) (rest : List Byte) (k : Kind), c.kindOf b0 = some k → k.format = .RR →
    (decoderOut c (b0 :: b1 :: rest)).rs = regMap (b1.toNat % 16))

/-- R84: in an RR instruction, `rs` is the low nibble of byte 1 through the register map; its high nibble takes no part;
the encoder writes it as 0. -/
def Obligations.SecondRegisterField : Prop :=
  (∀ (c : Config) (b0 b1 : Byte) (rest : List Byte) (k : Kind), c.kindOf b0 = some k → k.format = .RR →
    (decoderOut c (b0 :: b1 :: rest)).rs = regMap (b1.toNat % 16)) ∧
  (∀ (c : Config) (b0 b1 b1' : Byte) (rest : List Byte) (k : Kind), c.kindOf b0 = some k → k.format = .RR →
    b1.toNat % 16 = b1'.toNat % 16 → decode c (b0 :: b1 :: rest) = decode c (b0 :: b1' :: rest)) ∧
  (∀ (c : Config) (i : Instr) (k : Kind) (b0 b1 : Byte) (rest : List Byte), i.kind? = some k → k.format = .RR →
    encode c i = b0 :: b1 :: rest → b1.toNat / 16 = 0)

/-- R85: the immediate of an RI instruction is its bytes 1 to 4, little-endian, and nothing else is done to it. -/
def Obligations.ImmediateAssembly : Prop :=
  ∀ (c : Config) (b0 b1 b2 b3 b4 : Byte) (rest : List Byte) (k : Kind), c.kindOf b0 = some k → k.format = .RI →
    (decoderOut c (b0 :: b1 :: b2 :: b3 :: b4 :: rest)).imm =
      (b1.zeroExtend 32 ||| b2.zeroExtend 32 <<< 8 ||| b3.zeroExtend 32 <<< 16 ||| b4.zeroExtend 32 <<< 24)

/-- R86: the default opcode map of profile P5, row by row: byte 0 for register field 0, kind, format; and no kind from 0x88
up. -/
def Obligations.OpcodeTableP5 : Prop :=
  (∀ row ∈ ([(0x00, .movi, .RI), (0x08, .mov, .RR), (0x10, .je, .RI), (0x18, .jl, .RI), (0x20, .addi, .RI),
      (0x28, .add, .RR), (0x30, .subi, .RI), (0x38, .sub, .RR), (0x40, .andi, .RI)] ++
      [(0x48, .andr, .RR), (0x50, .ori, .RI), (0x58, .orr, .RR), (0x60, .notr, .R), (0x68, .ld, .RI),
      (0x70, .st, .RI), (0x78, .stf, .R), (0x80, .jez, .R)] : List (Nat × Kind × Format)),
    row.2.1.format = row.2.2 ∧ ∀ image rf, rf < 8 →
      (Config.standard .p5 image).kindOf (BitVec.ofNat 8 (row.1 + rf)) = some row.2.1) ∧
  (∀ (image : List Byte) (b : Byte), 0x88 ≤ b.toNat → (Config.standard .p5 image).kindOf b = none)

/-- R87: the default opcode map of profile P4, row by row; no kind from 0xE0 up; JE, JL and ST nowhere. -/
def Obligations.OpcodeTableP4 : Prop :=
  (∀ row ∈ ([(0x00, .movi, .RI), (0x10, .mov, .RR), (0x20, .jez, .R), (0x30, .addi, .RI), (0x40, .add, .RR),
      (0x50, .subi, .RI), (0x60, .sub, .RR)] ++
      [(0x70, .andi, .RI), (0x80, .andr, .RR), (0x90, .ori, .RI), (0xA0, .orr, .RR), (0xB0, .notr, .R),
      (0xC0, .ld, .RI), (0xD0, .stf, .R)] : List (Nat × Kind × Format)),
    row.2.1.format = row.2.2 ∧ ∀ image rf, rf < 16 →
      (Config.standard .p4 image).kindOf (BitVec.ofNat 8 (row.1 + rf)) = some row.2.1) ∧
  (∀ (image : List Byte) (b : Byte), 0xE0 ≤ b.toNat → (Config.standard .p4 image).kindOf b = none) ∧
  NotInProfile .p4 .je ∧ NotInProfile .p4 .jl ∧ NotInProfile .p4 .st

/-- R90: `Decode(pc)` of a state, case by case: at or past the limit; no entry in the opcode map; cut by the limit;
decoded, with `rs` and `imm` 0 where the format has none. -/
def Obligations.DecodeOfState : Prop :=
  ∀ (s : State) (pc : Nat) (b0 : Byte) (o : DecoderOut), pc = (s.x .ip).toNat → b0 = fetchByte s pc →
    o = decoderOut s.cfg (fetchBytes s) →
    (s.cfg.progEnd ≤ pc → o = ⟨none, .r0, .r0, 0, 0, .truncatedOperand⟩) ∧
    (pc < s.cfg.progEnd → s.cfg.kindOf b0 = none →
      o = ⟨none, regMap (s.cfg.profile.regField b0), .r0, 0, 0, .invalidOpcode⟩) ∧
    (∀ k, pc < s.cfg.progEnd → s.cfg.kindOf b0 = some k → s.cfg.progEnd < pc + k.format.len →
      o = ⟨none, regMap (s.cfg.profile.regField b0), .r0, 0, 0, .truncatedOperand⟩) ∧
    (∀ k, s.cfg.kindOf b0 = some k → pc + k.format.len ≤ s.cfg.progEnd →
      o = ⟨some k, regMap (s.cfg.profile.regField b0),
        (if k.format = .RR then regMap ((fetchByte s (pc + 1)).toNat % 16) else .r0),
        (if k.format = .RI then
          leWord (fetchByte s (pc + 1)) (fetchByte s (pc + 2)) (fetchByte s (pc + 3)) (fetchByte s (pc + 4)) else 0),
        k.format.len, .none⟩)

/-- R91: the length follows from byte 0 alone, and so does the kind. -/
def Obligations.LengthFromByteZero : Prop :=
  ∀ (c : Config) (b0 : Byte) (rest rest' : List Byte) (i j : Instr), decode c (b0 :: rest) = .ok i →
    decode c (b0 :: rest') = .ok j → i.len = j.len ∧ i.kind? = j.kind?

/-- R97, first half: a decoded instruction was read from exactly its length in bytes; what follows them takes no part. -/
def Obligations.DecodeConsumesItsLength : Prop :=
  ∀ (c : Config) (bytes rest : List Byte) (i : Instr), decode c bytes = .ok i → i.kind? ≠ none →
    i.len ≤ bytes.length ∧ (i.len = 1 ∨ i.len = 2 ∨ i.len = 5) ∧ decode c (bytes.take i.len ++ rest) = .ok i

/-- R98: decoding the encoding of any well-formed instruction, under any parameters, with any operands and whatever bytes
follow, gives the instruction; the encoding has the instruction's length, and the sentinel's is its one byte. -/
def Obligations.DecodeEncodeRoundTrip : Prop :=
  ∀ (c : Config) (i : Instr) (rest : List Byte), i.wf c = true →
    decode c (encode c i ++ rest) = .ok i ∧ (encode c i).length = max 1 i.len

/-- Words written out from the encodings of R81 to R87, with the instruction each stands for. -/
def Obligations.WrittenOutWords : Prop :=
  decode (Config.standard .p5 []) [0b00001001, 0b00000010] = .ok (.mov .r1 .r2) ∧
  decode (Config.standard .p5 []) [0b00010001, 0x01, 0x02, 0x03, 0x04] = .ok (.je .r1 0x04030201) ∧
  decode (Config.standard .p5 []) [0b00101101, 0b11110110] = .ok (.add .fl .ip) ∧
  decode (Config.standard .p5 []) [0b01111001] = .ok (.stf .r1) ∧
  decode (Config.standard .p4 []) [0b00010001, 0b00000010] = .ok (.mov .r1 .r2) ∧
  decode (Config.standard .p4 []) [0b11010001] = .ok (.stf .r1) ∧
  decode (Config.standard .p5 []) [0b10001000] = .ok (.invalid 0x88)

/-- The words of the opcode table: whatever the decoder reads from one is what the next step runs once the word is placed
where the state fetches. How a word is placed, and in which profile it is read, are the model's choices (log entries 5 and
13). -/
def Obligations.TableWordRuns : Prop :=
  ∀ (s : State) (nbits w : Nat) (i : Instr), decodeTableWord nbits w = some i →
    step (s.withFetchWord nbits w) = exec i (s.withFetchWord nbits w)

/-! ### The instructions: encoding, effect, frame, completion -/

/-- `40_move.md` R110, MOVI. -/
def Obligations.MoveImmediate : Prop :=
  EncodesRI .p5 0x00 .movi ∧ EncodesRI .p4 0x00 .movi ∧
  ∀ (s : State) (rd : Reg) (imm : Word), ∃ t, exec (.movi rd imm) s = .next t ∧ ResultIn s t rd imm 5

/-- R111, MOV. -/
def Obligations.MoveRegister : Prop :=
  EncodesRR .p5 0x08 .mov ∧ EncodesRR .p4 0x10 .mov ∧
  ∀ (s : State) (rd rs : Reg), ∃ t, exec (.mov rd rs) s = .next t ∧ ResultIn s t rd (s.x rs) 2

/-- `41_jump.md` R120, JE: taken exactly on equality with `fl`; JE `fl` always. -/
def Obligations.JumpIfEqual : Prop :=
  EncodesRI .p5 0x10 .je ∧ NotInProfile .p4 .je ∧
  (∀ (s : State) (rd : Reg) (imm : Word), ∃ t, exec (.je rd imm) s = .next t ∧
    (s.x rd = s.x .fl → PointerAt s t imm) ∧ (s.x rd ≠ s.x .fl → PointerAt s t (s.x .ip + 5))) ∧
  (∀ (s : State) (imm : Word), ∃ t, exec (.je .fl imm) s = .next t ∧ PointerAt s t imm)

/-- R121, JL: taken exactly when strictly less than `fl`, unsigned; JL `fl` never. -/
def Obligations.JumpIfLess : Prop :=
  EncodesRI .p5 0x18 .jl ∧ NotInProfile .p4 .jl ∧
  (∀ (s : State) (rd : Reg) (imm : Word), ∃ t, exec (.jl rd imm) s = .next t ∧
    ((s.x rd).toNat < (s.x .fl).toNat → PointerAt s t imm) ∧
    ((s.x .fl).toNat ≤ (s.x rd).toNat → PointerAt s t (s.x .ip + 5))) ∧
  (∀ (s : State) (imm : Word), ∃ t, exec (.jl .fl imm) s = .next t ∧ PointerAt s t (s.x .ip + 5))

/-- R122, JEZ: taken exactly on zero, to the address in `fl`. -/
def Obligations.JumpIfZero : Prop :=
  EncodesR .p5 0x80 .jez ∧ EncodesR .p4 0x20 .jez ∧
  ∀ (s : State) (rd : Reg), ∃ t, exec (.jez rd) s = .next t ∧
    (s.x rd = 0 → PointerAt s t (s.x .fl)) ∧ (s.x rd ≠ 0 → PointerAt s t (s.x .ip + 1))

/-- `42_alu.md` R131 and R132, ADDI and ADD: the sum modulo 2^32. -/
def Obligations.AddForms : Prop :=
  EncodesRI .p5 0x20 .addi ∧ EncodesRI .p4 0x30 .addi ∧ EncodesRR .p5 0x28 .add ∧ EncodesRR .p4 0x40 .add ∧
  (∀ (s : State) (rd : Reg) (imm : Word), ∃ t v, exec (.addi rd imm) s = .next t ∧ ResultIn s t rd v 5 ∧
    v.toNat = ((s.x rd).toNat + imm.toNat) % 2 ^ 32) ∧
  (∀ (s : State) (rd rs : Reg), ∃ t v, exec (.add rd rs) s = .next t ∧ ResultIn s t rd v 2 ∧
    v.toNat = ((s.x rd).toNat + (s.x rs).toNat) % 2 ^ 32)

/-- R133 and R134, SUBI and SUB: the register minus the operand, modulo 2^32. -/
def Obligations.SubtractForms : Prop :=
  EncodesRI .p5 0x30 .subi ∧ EncodesRI .p4 0x50 .subi ∧ EncodesRR .p5 0x38 .sub ∧ EncodesRR .p4 0x60 .sub ∧
  (∀ (s : State) (rd : Reg) (imm : Word), ∃ t v, exec (.subi rd imm) s = .next t ∧ ResultIn s t rd v 5 ∧
    (v.toNat : Int) = ((s.x rd).toNat - imm.toNat : Int) % 2 ^ 32) ∧
  (∀ (s : State) (rd rs : Reg), ∃ t v, exec (.sub rd rs) s = .next t ∧ ResultIn s t rd v 2 ∧
    (v.toNat : Int) = ((s.x rd).toNat - (s.x rs).toNat : Int) % 2 ^ 32)

/-- R135 and R136, ANDI and AND, bit by bit. -/
def Obligations.AndForms : Prop :=
  EncodesRI .p5 0x40 .andi ∧ EncodesRI .p4 0x70 .andi ∧ EncodesRR .p5 0x48 .andr ∧ EncodesRR .p4 0x80 .andr ∧
  (∀ (s : State) (rd : Reg) (imm : Word), ∃ t v, exec (.andi rd imm) s = .next t ∧ ResultIn s t rd v 5 ∧
    ∀ k, v.getLsbD k = ((s.x rd).getLsbD k && imm.getLsbD k)) ∧
  (∀ (s : State) (rd rs : Reg), ∃ t v, exec (.andr rd rs) s = .next t ∧ ResultIn s t rd v 2 ∧
    ∀ k, v.getLsbD k = ((s.x rd).getLsbD k && (s.x rs).getLsbD k))

/-- R137 and R138, ORI and OR, bit by bit. -/
def Obligations.OrForms : Prop :=
  EncodesRI .p5 0x50 .ori ∧ EncodesRI .p4 0x90 .ori ∧ EncodesRR .p5 0x58 .orr ∧ EncodesRR .p4 0xA0 .orr ∧
  (∀ (s : State) (rd : Reg) (imm : Word), ∃ t v, exec (.ori rd imm) s = .next t ∧ ResultIn s t rd v 5 ∧
    ∀ k, v.getLsbD k = ((s.x rd).getLsbD k || imm.getLsbD k)) ∧
  (∀ (s : State) (rd rs : Reg), ∃ t v, exec (.orr rd rs) s = .next t ∧ ResultIn s t rd v 2 ∧
    ∀ k, v.getLsbD k = ((s.x rd).getLsbD k || (s.x rs).getLsbD k))

/-- R139, NOT: every one of the 32 bits inverted, equivalently 0xFFFFFFFF minus the value; NOT `ip` continues at `0 - pc`. -/
def Obligations.Complement : Prop :=
  EncodesR .p5 0x60 .notr ∧ EncodesR .p4 0xB0 .notr ∧
  (∀ (s : State) (rd : Reg), ∃ t v, exec (.notr rd) s = .next t ∧ ResultIn s t rd v 1 ∧
    (∀ k, k < 32 → v.getLsbD k = !(s.x rd).getLsbD k) ∧ v = 0xFFFFFFFF - s.x rd) ∧
  (∀ s : State, ∃ t, exec (.notr .ip) s = .next t ∧ t.x .ip = 0 - s.x .ip)

/-- `43_load_store.md` R150, LD: the word at the address, or the BoundsViolation fault with nothing else changed. -/
def Obligations.LoadWord : Prop :=
  EncodesRI .p5 0x68 .ld ∧ EncodesRI .p4 0xC0 .ld ∧
  (∀ (s : State) (rd : Reg) (imm : Word) (g : Region) (off : Nat), translateAddr s.cfg imm = some (g, off) →
    ∃ t, exec (.ld rd imm) s = .next t ∧
      ResultIn s t rd (leWord ((s.array g).read off) ((s.array g).read (off + 1)) ((s.array g).read (off + 2))
        ((s.array g).read (off + 3))) 5) ∧
  (∀ (s : State) (rd : Reg) (imm : Word), translateAddr s.cfg imm = none →
    ∃ t, exec (.ld rd imm) s = .next t ∧ FaultEntered s t .boundsViolation)

/-- R151, ST: the four bytes of `x[rd]` at the address of the immediate and nowhere else, or the BoundsViolation fault with
no byte written. -/
def Obligations.StoreWord : Prop :=
  EncodesRI .p5 0x70 .st ∧ NotInProfile .p4 .st ∧
  (∀ (s : State) (rd : Reg) (imm : Word) (g : Region) (off : Nat),
    translateAddr s.cfg (absoluteAddress imm) = some (g, off) →
    ∃ t, exec (.st rd imm) s = .next t ∧ StoredWord s t g off (s.x rd) 5) ∧
  (∀ (s : State) (rd : Reg) (imm : Word), translateAddr s.cfg (absoluteAddress imm) = none →
    ∃ t, exec (.st rd imm) s = .next t ∧ FaultEntered s t .boundsViolation)

/-- R152, STF: the four bytes of `x[rd]` at the address in `fl`, whatever `rd` is, or the BoundsViolation fault. -/
def Obligations.StoreThroughFlag : Prop :=
  EncodesR .p5 0x78 .stf ∧ EncodesR .p4 0xD0 .stf ∧
  (∀ (s : State) (rd : Reg) (g : Region) (off : Nat), translateAddr s.cfg (flagAddress s) = some (g, off) →
    ∃ t, exec (.stf rd) s = .next t ∧ StoredWord s t g off (s.x rd) 1) ∧
  (∀ (s : State) (rd : Reg), translateAddr s.cfg (flagAddress s) = none →
    ∃ t, exec (.stf rd) s = .next t ∧ FaultEntered s t .boundsViolation) ∧
  (∀ s : State, flagAddress s = s.x .fl)

/-- R88 and `60_exceptions.md` R202: the sentinel, whatever byte it stands for, takes the InvalidOpcode fault. -/
def Obligations.InvalidByteFaults : Prop :=
  ∀ (s : State) (b : Byte), ∃ t, exec (.invalid b) s = .next t ∧ FaultEntered s t .invalidOpcode

/-- `45_step_and_blocks.md` R177 with R140: the engine's outputs, arithmetic modulo 2^32, logic bit by bit, comparisons
unsigned. -/
def Obligations.AluEngineTable : Prop :=
  ∀ a b : Word,
    (aluEngine .passB a b).y = b ∧ (aluEngine .passB a b).take = false ∧
    (aluEngine .add a b).y.toNat = (a.toNat + b.toNat) % 2 ^ 32 ∧ (aluEngine .add a b).take = false ∧
    ((aluEngine .sub a b).y.toNat : Int) = (a.toNat - b.toNat : Int) % 2 ^ 32 ∧ (aluEngine .sub a b).take = false ∧
    (∀ k, (aluEngine .and a b).y.getLsbD k = (a.getLsbD k && b.getLsbD k)) ∧ (aluEngine .and a b).take = false ∧
    (∀ k, (aluEngine .or a b).y.getLsbD k = (a.getLsbD k || b.getLsbD k)) ∧ (aluEngine .or a b).take = false ∧
    (∀ k, k < 32 → (aluEngine .not a b).y.getLsbD k = !a.getLsbD k) ∧ (aluEngine .not a b).take = false ∧
    ((aluEngine .cmpEq a b).take = true ↔ a = b) ∧ ((aluEngine .cmpLtU a b).take = true ↔ a.toNat < b.toNat)

/-! ### Memory -/

/-- `20_memory.md` R56: `Translate`, arm by arm, and that loads and stores go by it alone. -/
def Obligations.TranslateRule : Prop :=
  (∀ (c : Config) (a : Word),
    (c.mmioEn = true → c.devBase ≤ a.toNat →
      (a.toNat - c.devBase + 4 ≤ c.devSize → translateAddr c a = some (.dev, a.toNat - c.devBase)) ∧
      (c.devSize < a.toNat - c.devBase + 4 → translateAddr c a = none)) ∧
    (c.mmioEn = false ∨ a.toNat < c.devBase →
      (a.toNat + 4 ≤ c.memSize → translateAddr c a = some (.ram, a.toNat)) ∧
      (c.memSize < a.toNat + 4 → translateAddr c a = none))) ∧
  (∀ (s : State) (a v : Word), (memRead s a = none ↔ translateAddr s.cfg a = none) ∧
    (memWrite s a v = none ↔ translateAddr s.cfg a = none))

/-- R57: the RAM bound, without wrap-around; the last legal address under the default `MEM_SIZE`. -/
def Obligations.RamBounds : Prop :=
  (∀ (c : Config) (a : Word), c.mmioEn = false ∨ a.toNat < c.devBase →
    (translateAddr c a ≠ none ↔ a.toNat + 3 < c.memSize)) ∧
  (∀ c : Config, c.mmioEn = false → c.memSize = 2 ^ 32 → translateAddr c 0xFFFFFFFD = none) ∧
  (∀ (p : Profile) (image : List Byte) (a : Word), a.toNat < 0xFFFF0000 →
    (translateAddr (Config.standard p image) a ≠ none ↔ a.toNat + 4 ≤ (Config.standard p image).progEnd))

/-- R58: the device bound, in general and under the default parameters. -/
def Obligations.DeviceBounds : Prop :=
  (∀ (c : Config) (a : Word), c.mmioEn = true → c.devBase ≤ a.toNat →
    (translateAddr c a ≠ none ↔ a.toNat - c.devBase + 3 < c.devSize)) ∧
  (∀ (p : Profile) (image : List Byte) (a : Word), 0xFFFF0000 ≤ a.toNat →
    (translateAddr (Config.standard p image) a ≠ none ↔ a.toNat ≤ 0xFFFF29FC))

/-- R60: `MemRead` gives `b3 b2 b1 b0`, the byte at the lowest address least significant. -/
def Obligations.MemReadRule : Prop :=
  ∀ (s : State) (a : Word),
    (translateAddr s.cfg a = none → memRead s a = none) ∧
    (∀ g off, translateAddr s.cfg a = some (g, off) → ∃ v, memRead s a = some v ∧
      v.toNat = ((s.array g).read off).toNat + 2 ^ 8 * ((s.array g).read (off + 1)).toNat +
        2 ^ 16 * ((s.array g).read (off + 2)).toNat + 2 ^ 24 * ((s.array g).read (off + 3)).toNat)

/-- R61: `MemWrite` changes the four bytes and nothing else. -/
def Obligations.MemWriteRule : Prop :=
  ∀ (s : State) (a v : Word),
    (translateAddr s.cfg a = none → memWrite s a v = none) ∧
    (∀ g off, translateAddr s.cfg a = some (g, off) → ∃ t, memWrite s a v = some t ∧
      (t.array g).read off = v.extractLsb' 0 8 ∧ (t.array g).read (off + 1) = v.extractLsb' 8 8 ∧
      (t.array g).read (off + 2) = v.extractLsb' 16 8 ∧ (t.array g).read (off + 3) = v.extractLsb' 24 8 ∧
      (∀ (h : Region) (b : Nat), ¬(h = g ∧ off ≤ b ∧ b < off + 4) → (t.array h).read b = (s.array h).read b) ∧
      StatusKept s t ∧ t.regs = s.regs)

/-- R64, R52: a word stored by ST is the word a following LD of the same address reads, in RAM and in `DEV`, for any
registers. -/
def Obligations.StoreThenLoad : Prop :=
  ∀ (s : State) (rd rq : Reg) (imm : Word), translateAddr s.cfg imm ≠ none →
    ∃ t u, exec (.st rd imm) s = .next t ∧ exec (.ld rq imm) t = .next u ∧ ResultIn t u rq (s.x rd) 5

/-- R69: an instruction of one or two bytes that an ST has just put where execution continues is what the very next step
runs. -/
def Obligations.StoredCodeRuns : Prop :=
  ∀ (s : State) (rd : Reg) (imm : Word) (i : Instr) (n : Nat), s.run = .running → i.wf s.cfg = true →
    n = (encode s.cfg i).length → n ≤ 2 → imm = s.x .ip + 5 → translateAddr s.cfg imm = some (.ram, imm.toNat) →
    imm.toNat + n ≤ s.cfg.progEnd → s.cfg.Runnable →
    (∀ (k : Nat) (h : k < (encode s.cfg i).length), byteOf k (s.x rd) = (encode s.cfg i)[k]) →
    ∃ t, exec (.st rd imm) s = .next t ∧ step t = exec i t

/-- R71: a store at the even offset `2k` of the device buffer writes glyph `k`, colour `k`, glyph `k + 1`, colour `k + 1`, in
that order, and no other cell; a colour byte is two nibbles. -/
def Obligations.DeviceCells : Prop :=
  (∀ (s : State) (rd : Reg) (imm : Word) (k : Nat), s.cfg.mmioEn = true → imm.toNat = s.cfg.devBase + 2 * k →
    2 * k + 4 ≤ s.cfg.devSize → ∃ t, exec (.st rd imm) s = .next t ∧
      t.glyph k = byteOf 0 (s.x rd) ∧ t.colour k = byteOf 1 (s.x rd) ∧
      t.glyph (k + 1) = byteOf 2 (s.x rd) ∧ t.colour (k + 1) = byteOf 3 (s.x rd) ∧
      (∀ j, j ≠ k → j ≠ k + 1 → t.glyph j = s.glyph j ∧ t.colour j = s.colour j)) ∧
  (∀ b : Byte, b.toNat = 16 * (foreground b).toNat + (background b).toNat)

/-! ### The step -/

/-- `45_step_and_blocks.md` R170: below the end of the program, a RUNNING machine whose bytes at `pc` decode to an
instruction runs exactly that instruction. -/
def Obligations.StepRunsDecoded : Prop :=
  ∀ (s : State) (i : Instr), s.run = .running → (s.x .ip).toNat < s.cfg.progEnd → s.cfg.Runnable →
    decodeAt s = .ok i → step s = exec i s

/-- R170 with R62, R97, R98: whatever well-formed instruction is encoded in RAM at `pc`, wholly below the end of the
program, the step runs it. -/
def Obligations.StepRunsEncoded : Prop :=
  ∀ (s : State) (i : Instr), s.run = .running → i.wf s.cfg = true → s.cfg.Runnable →
    (s.x .ip).toNat + (encode s.cfg i).length ≤ s.cfg.progEnd →
    (∀ (k : Nat) (h : k < (encode s.cfg i).length), s.ram.read ((s.x .ip).toNat + k) = (encode s.cfg i)[k]) →
    step s = exec i s

/-- R170: a RUNNING machine at or past the end of the program halts, and nothing but `run` changes. -/
def Obligations.EndOfProgramHalts : Prop :=
  ∀ s : State, s.run = .running → s.cfg.Described → s.cfg.progEnd ≤ (s.x .ip).toNat →
    ∃ t, step s = .next t ∧ t.run = .halted ∧ t.cause = s.cause ∧ t.cfg = s.cfg ∧ t.regs = s.regs ∧ MemoryKept s t

/-- `60_exceptions.md` R202: a byte at `pc` whose opcode number has no entry halts the machine with InvalidOpcode; `pc` stays
at the byte. -/
def Obligations.InvalidOpcodeHalts : Prop :=
  ∀ s : State, s.run = .running → (s.x .ip).toNat < s.cfg.progEnd → s.cfg.Runnable →
    s.cfg.kindOf (fetchByte s (s.x .ip).toNat) = none → ∃ t, step s = .next t ∧ FaultEntered s t .invalidOpcode

/-- R203: an instruction cut by the end of the program halts the machine with TruncatedOperand; an RR kind only in the last
byte, an RI kind only in the last four, an R kind never. -/
def Obligations.TruncatedOperandHalts : Prop :=
  ∀ (s : State) (k : Kind), s.run = .running → (s.x .ip).toNat < s.cfg.progEnd → s.cfg.Runnable →
    s.cfg.kindOf (fetchByte s (s.x .ip).toNat) = some k →
    (s.cfg.progEnd < (s.x .ip).toNat + k.format.len → ∃ t, step s = .next t ∧ FaultEntered s t .truncatedOperand) ∧
    (decodeAt s = .error .truncatedOperand →
      (k.format = .RR ∧ (s.x .ip).toNat + 1 = s.cfg.progEnd) ∨
      (k.format = .RI ∧ s.cfg.progEnd ≤ (s.x .ip).toNat + 4))

/-- R204: BoundsViolation is raised exactly by an LD, ST or STF whose access `Translate` finds out of bounds, and by no fetch;
it halts, and no other fault comes from an instruction that was decoded (the sentinel stands for a byte that was not). -/
def Obligations.BoundsViolationExactly : Prop :=
  (∀ (s t : State) (i : Instr), s.cause = .none → exec i s = .next t →
    (t.cause = .boundsViolation ↔ ∃ a, dataAddress s i = some a ∧ translateAddr s.cfg a = none)) ∧
  (∀ s t : State, s.run = .running → s.cause = .none → step s = .next t → t.cause = .boundsViolation →
    ∃ i a, decodeAt s = .ok i ∧ dataAddress s i = some a ∧ translateAddr s.cfg a = none) ∧
  (∀ (s t : State) (i : Instr), s.cause = .none → exec i s = .next t → t.cause ≠ .none →
    FaultEntered s t t.cause ∧ (t.cause = .boundsViolation ∨ ∃ b, i = .invalid b))

/-- `10_state.md` R29: RUNNING after reset; a step halts exactly at the end of the program or by a fault; HALTED is
terminal; only reset leaves it; no instruction reads `run`, or writes it but by raising a fault. -/
def Obligations.RunField : Prop :=
  (∀ c : Config, (State.boot c).run = .running) ∧
  (∀ s t : State, s.run = .running → step s = .next t →
    (t.run = .halted ↔ s.cfg.progEnd ≤ (s.x .ip).toNat ∨ ∃ f, f ≠ .none ∧ FaultEntered s t f)) ∧
  (∀ (s t : State) (k : Nat), s.run = .halted → (RunsTo k s t ↔ t = s)) ∧
  (∀ (s : State) (c : Config), (s.hostReset c).run = .running) ∧
  (∀ (i : Instr) (s t : State) (r : Run), exec i s = .next t →
    (t.run = s.run ∧ exec i { s with run := r } = .next { t with run := r }) ∨
      (∃ f, f ≠ .none ∧ FaultEntered s t f ∧ exec i { s with run := r } = .next t))

/-- R30: the codes of `cause`; NONE after reset; set once, by a step that halts; RUNNING implies NONE; no instruction reads
`cause`, or writes it but by raising a fault. -/
def Obligations.CauseField : Prop :=
  causeCode .none = 0 ∧ causeCode .invalidOpcode = 1 ∧ causeCode .truncatedOperand = 2 ∧ causeCode .boundsViolation = 3 ∧
  (∀ c : Config, (State.boot c).cause = .none) ∧
  (∀ s t : State, (s.run = .running → s.cause = .none) → step s = .next t →
    (s.cause ≠ .none → t.cause = s.cause) ∧ (t.cause ≠ s.cause → s.run = .running ∧ t.run = .halted) ∧
    (t.run = .running → t.cause = .none)) ∧
  (∀ (i : Instr) (s t : State) (q : Cause), exec i s = .next t →
    (t.cause = s.cause ∧ exec i { s with cause := q } = .next { t with cause := q }) ∨
      (∃ f, f ≠ .none ∧ FaultEntered s t f ∧ exec i { s with cause := q } = .next t))

/-- R206: `raise` sets `cause` and `run` and nothing else, and every step that changes `cause` did exactly that. -/
def Obligations.FaultEntryIsPrecise : Prop :=
  (∀ (s : State) (f : Cause), FaultEntered s (s.raise f) f) ∧
  (∀ s t : State, step s = .next t → t.cause ≠ s.cause → FaultEntered s t t.cause)

/-- R22, R23: an instruction changes no register but its destination and the pointer; `fl` in particular changes only when it
is named. -/
def Obligations.OnlyNamedRegistersChange : Prop :=
  ∀ (i : Instr) (s t : State) (r : Reg), exec i s = .next t → r ≠ .ip → t.x r ≠ s.x r → destination i = some r

/-- R61, R63, R153: an instruction changes no byte of memory but the four bytes it stores to. -/
def Obligations.MemoryChangesOnlyByStores : Prop :=
  ∀ (i : Instr) (s t : State) (g : Region) (b : Nat), exec i s = .next t → (t.array g).read b ≠ (s.array g).read b →
    ∃ a off, storeAddress s i = some a ∧ translateAddr s.cfg a = some (g, off) ∧ off ≤ b ∧ b < off + 4

/-- R31: no run changes the parameters. -/
def Obligations.ParametersNeverChange : Prop :=
  ∀ (k : Nat) (s t : State), RunsTo k s t → t.cfg = s.cfg

/-- R87, R94: what an instruction does depends neither on the profile nor on the opcode maps. -/
def Obligations.MeaningIndependentOfProfile : Prop :=
  ∀ (i : Instr) (s t : State) (p : Profile) (m5 m4 : List (Option Kind)), exec i s = .next t →
    exec i (s.recoded p m5 m4) = .next (t.recoded p m5 m4)

/-- R62, R33: fetch never reads the device buffer: unless the step runs an LD from it, its contents reach nothing but the
buffer itself. -/
def Obligations.DeviceContentsReachOnlyLoads : Prop :=
  ∀ (s t : State) (d : Memory),
    (∀ rd imm off, decodeAt s = .ok (.ld rd imm) → translateAddr s.cfg imm ≠ some (.dev, off)) → step s = .next t →
    ∃ d', step (s.setArray .dev d) = .next (t.setArray .dev d')

/-- Every instruction has a next state, and every step under parameters with the described registers and an image that fits
RAM (`00_scope.md` R6); the model's two stops are exactly where they are not so (log entries 2 and 7, the model's choice). -/
def Obligations.EveryStepCompletes : Prop :=
  (∀ (i : Instr) (s : State), ∃ t, exec i s = .next t) ∧
  (∀ s : State, s.cfg.Runnable → ∃ t, step s = .next t) ∧
  (∀ s : State, step s = .fault .imageOutsideRam ↔
    s.run = .running ∧ s.cfg.Described ∧ (s.x .ip).toNat < s.cfg.progEnd ∧ s.cfg.memSize < s.cfg.progEnd) ∧
  (∀ s : State, step s = .fault .registersNotDescribed ↔ s.run = .running ∧ ¬ s.cfg.Described)

/-- `70_reset_and_hazards.md` R236: a step of a RUNNING machine that changes nothing at all is a taken jump to its own
address, a JEZ with its own address in `fl`, or an instruction that writes the pointer. -/
def Obligations.ForwardProgress : Prop :=
  ∀ s : State, s.run = .running → step s = .next s → ∃ i, decodeAt s = .ok i ∧
    ((∃ rd, i = .je rd (s.x .ip) ∧ s.x rd = s.x .fl) ∨
      (∃ rd, i = .jl rd (s.x .ip) ∧ (s.x rd).toNat < (s.x .fl).toNat) ∨
      (∃ rd, i = .jez rd ∧ s.x rd = 0 ∧ s.x .fl = s.x .ip) ∨ destination i = some .ip)

/-! ### Reset, the invariant, runs -/

/-- `10_state.md` R35: the reset value of every piece of state; a reset at any time gives the same (R230). -/
def Obligations.ResetState : Prop :=
  ∀ (c : Config) (s : State), s = State.boot c →
    s.cfg = c ∧ (∀ r, r ≠ .ip → s.x r = 0) ∧ (c.rBytes < 2 ^ 32 → (s.x .ip).toNat = c.rBytes) ∧
    (∀ p image, c = Config.standard p image → s.x .ip = 0x0003FFFC) ∧
    s.run = .running ∧ s.cause = .none ∧
    (∀ a, a < c.rBytes → s.ram.read a = 0) ∧
    (∀ (k : Nat) (h : k < c.image.length), s.ram.read (c.rBytes + k) = c.image[k]) ∧
    (∀ a, c.progEnd ≤ a → s.ram.read a = 0) ∧ (∀ off, s.dev.read off = 0) ∧
    (∀ t : State, t.hostReset c = s)

/-- R231: with an empty image the first step halts normally and changes nothing but `run`. -/
def Obligations.EmptyImageHaltsAtOnce : Prop :=
  ∀ c : Config, c.Described → c.image = [] → c.rBytes < 2 ^ 32 →
    ∃ t, step (State.boot c) = .next t ∧ t.run = .halted ∧ t.cause = .none ∧ t.regs = (State.boot c).regs ∧
      MemoryKept (State.boot c) t

/-- The invariant holds at `State.reset`, whose profile and image are the model's choice (log entries 3 and 4). -/
def Obligations.ResetMeetsInvariant : Prop := State.reset.Inv

/-- The invariant holds after a reset with any parameters that meet `00_scope.md` R6. -/
def Obligations.BootMeetsInvariant : Prop := ∀ c : Config, c.valid = true → (State.boot c).Inv

/-- Every step keeps the invariant: the parameters meet R6, both arrays stay canonical and inside their sizes (R32, R33, R59),
and RUNNING implies NONE (R30). -/
def Obligations.StepKeepsInvariant : Prop := ∀ s t : State, s.Inv → step s = .next t → t.Inv

/-- R238: a run that starts RUNNING and has ended ended normally exactly when one of its steps began at or past the end of
the program; otherwise it ended in a fault. -/
def Obligations.NormalEndExactly : Prop :=
  ∀ (k : Nat) (s t : State), s.run = .running → s.cause = .none → RunsTo k s t → Ended t →
    (EndedNormally t ↔ ∃ j u, j < k ∧ RunsTo j s u ∧ u.run = .running ∧ u.cfg.progEnd ≤ (u.x .ip).toNat) ∧
    (EndedNormally t ∨ EndedInFault t)

/-- R234: from any address `a` in a zeroed reserved region, in either profile, `n` steps that stay inside it move the pointer
by `5 n`, clear `r0` and change nothing else: from 0 the run arrives exactly at `R_BYTES` after 52428 steps. -/
def Obligations.ZeroedRegionRunsThrough : Prop :=
  (∀ (p : Profile) (image : List Byte) (s : State) (a n : Nat), s.cfg = Config.standard p image → s.run = .running →
    (∀ b, b < 262140 → s.ram.read b = 0) → (s.x .ip).toNat = a → a + 5 * n ≤ 262140 →
    ∃ t, RunsTo n s t ∧ (t.x .ip).toNat = a + 5 * n ∧ (0 < n → t.x .r0 = 0) ∧
      (∀ r, r ≠ .ip → r ≠ .r0 → t.x r = s.x r) ∧ StatusKept s t ∧ t.ram = s.ram ∧ t.dev = s.dev) ∧
  (∀ (p : Profile) (image : List Byte) (s : State), s.cfg = Config.standard p image → s.run = .running →
    (∀ b, b < 262140 → s.ram.read b = 0) → s.x .ip = 0 → ∃ t, RunsTo 52428 s t ∧ t.x .ip = 262140)

/-! ### Parameters -/

/-- `00_scope.md` R5: every row, its default value or, where the row has none, the value it is given. -/
def Obligations.ParameterDefaults : Prop :=
  ∀ (p : Profile) (image : List Byte) (c : Config), c = Config.standard p image →
    c.xlen = 32 ∧ c.nreg = 7 ∧ c.profile = p ∧ c.opmapP5 = defaultOpmapP5 ∧ c.opmapP4 = defaultOpmapP4 ∧
    c.rBytes = 65535 * 4 ∧ c.image = image ∧ c.progLen = image.length ∧ c.progEnd = c.rBytes + c.progLen ∧
    c.memSize = c.progEnd ∧ c.mmioEn = true ∧ c.devBase = 0xFFFF0000 ∧ c.devSize = 0x2A00

/-- R5, `XLEN` and `NREG`, with `10_state.md` R20: under the parameters a machine runs with, the registers have `XLEN` bits and
are `NREG` many, indexed from 0; each is ordinary storage of its own, which takes any value and gives it back. -/
def Obligations.RegisterFileAsConfigured : Prop :=
  ∀ s : State, s.cfg.Described →
    (∀ r, (s.x r).toNat < 2 ^ s.cfg.xlen) ∧
    (∀ n, n < 2 ^ s.cfg.xlen → ∀ r, ((s.setX r (BitVec.ofNat 32 n)).x r).toNat = n) ∧
    (∀ r : Reg, r.index < s.cfg.nreg) ∧ (∀ n, n < s.cfg.nreg → ∃ r : Reg, r.index = n ∧ ∀ q : Reg, q.index = n → q = r) ∧
    (∀ (r q : Reg) (v : Word), q ≠ r → (s.setX r v).x q = s.x q)
end

