-- ==== Sys2Proof/Laws/Decode.lean ====
section
/-! SUPPORT. The laws of bytes and fields, of the opcode maps, of the decoder and of the encoder. -/

namespace Sys2Proof

/-! ### Bytes of a word -/

theorem leWord_toNat (b0 b1 b2 b3 : Byte) :
    (leWord b0 b1 b2 b3).toNat = b0.toNat + 2 ^ 8 * b1.toNat + 2 ^ 16 * b2.toNat + 2 ^ 24 * b3.toNat := by
  have h0 := b0.isLt; have h1 := b1.isLt; have h2 := b2.isLt; have h3 := b3.isLt
  simp only [leWord, BitVec.toNat_append, Nat.shiftLeft_eq]
  rw [← Nat.shiftLeft_eq, ← Nat.shiftLeft_eq, ← Nat.shiftLeft_eq,
    ← Nat.shiftLeft_add_eq_or_of_lt h2, ← Nat.shiftLeft_add_eq_or_of_lt h1, ← Nat.shiftLeft_add_eq_or_of_lt h0]
  simp only [Nat.shiftLeft_eq]
  omega

theorem byteOf_toNat (k : Nat) (v : Word) : (byteOf k v).toNat = v.toNat / 2 ^ (8 * k) % 256 := by
  simp [byteOf, BitVec.extractLsb'_toNat, Nat.shiftRight_eq_div_pow]

/-- The four bytes of a word, put together again. -/
@[simp] theorem leWord_byteOf (v : Word) : leWord (byteOf 0 v) (byteOf 1 v) (byteOf 2 v) (byteOf 3 v) = v := by
  apply BitVec.eq_of_toNat_eq
  have := v.isLt
  simp only [leWord_toNat, byteOf_toNat]
  omega

/-- Byte `k` of the word made of four bytes is the `k`th of them. -/
theorem byteOf_leWord (b0 b1 b2 b3 : Byte) :
    byteOf 0 (leWord b0 b1 b2 b3) = b0 ∧ byteOf 1 (leWord b0 b1 b2 b3) = b1 ∧
      byteOf 2 (leWord b0 b1 b2 b3) = b2 ∧ byteOf 3 (leWord b0 b1 b2 b3) = b3 := by
  have h0 := b0.isLt; have h1 := b1.isLt; have h2 := b2.isLt; have h3 := b3.isLt
  refine ⟨?_, ?_, ?_, ?_⟩ <;> apply BitVec.eq_of_toNat_eq <;> simp only [leWord_toNat, byteOf_toNat] <;> omega

/-- The assembled word as R85 writes it: shifts and ors of the widened bytes. -/
theorem leWord_eq_or (b0 b1 b2 b3 : Byte) : leWord b0 b1 b2 b3 =
    (b0.zeroExtend 32 ||| b1.zeroExtend 32 <<< 8 ||| b2.zeroExtend 32 <<< 16 ||| b3.zeroExtend 32 <<< 24) := by
  apply BitVec.eq_of_getLsbD_eq
  intro i hi
  simp only [leWord, BitVec.getLsbD_append, BitVec.getLsbD_or, BitVec.getLsbD_shiftLeft, BitVec.truncate_eq_setWidth,
    BitVec.getLsbD_setWidth]
  by_cases h0 : i < 8
  · simp [h0, show i < 16 by omega, show i < 24 by omega, hi]
  by_cases h1 : i < 16
  · have : b0.getLsbD i = false := BitVec.getLsbD_of_ge _ _ (by omega)
    simp [h0, h1, show i < 24 by omega, hi, this, show i - 8 < 8 by omega, show i - 8 < 32 by omega]
  by_cases h2 : i < 24
  · have e0 : b0.getLsbD i = false := BitVec.getLsbD_of_ge _ _ (by omega)
    have e1 : b1.getLsbD (i - 8) = false := BitVec.getLsbD_of_ge _ _ (by omega)
    simp [h0, h1, h2, hi, e0, e1, show ¬ i - 8 < 8 by omega, show i - 16 < 8 by omega, show i - 16 < 32 by omega,
      Nat.sub_sub]
  · have e0 : b0.getLsbD i = false := BitVec.getLsbD_of_ge _ _ (by omega)
    have e1 : b1.getLsbD (i - 8) = false := BitVec.getLsbD_of_ge _ _ (by omega)
    have e2 : b2.getLsbD (i - 16) = false := BitVec.getLsbD_of_ge _ _ (by omega)
    simp [h0, h1, h2, hi, e0, e1, e2, show ¬ i - 8 < 8 by omega, show ¬ i - 16 < 8 by omega,
      show i - 24 < 32 by omega, Nat.sub_sub]

/-! ### Fields of byte 0 and byte 1 -/

@[simp] theorem regSpace_p5 : Profile.p5.regSpace = 8 := rfl
@[simp] theorem regSpace_p4 : Profile.p4.regSpace = 16 := rfl
@[simp] theorem opcodeSpace_p5 : Profile.p5.opcodeSpace = 32 := rfl
@[simp] theorem opcodeSpace_p4 : Profile.p4.opcodeSpace = 16 := rfl

theorem opcodeField_eq (p : Profile) (b : Byte) : p.opcodeField b = b.toNat / p.regSpace := by
  have := b.isLt
  cases p <;> simp [Profile.opcodeField, Profile.regSpace, BitVec.extractLsb'_toNat, Nat.shiftRight_eq_div_pow] <;> omega

theorem regField_eq (p : Profile) (b : Byte) : p.regField b = b.toNat % p.regSpace := by
  cases p <;> simp [Profile.regField, Profile.regSpace, BitVec.extractLsb'_toNat]

theorem secondField_eq (b : Byte) : secondField b = b.toNat % 16 := by
  simp [secondField, BitVec.extractLsb'_toNat]

theorem opcodeField_lt (p : Profile) (b : Byte) : p.opcodeField b < p.opcodeSpace := by
  cases p
  · exact (b.extractLsb' 3 5).isLt
  · exact (b.extractLsb' 4 4).isLt

theorem index_lt (p : Profile) (r : Reg) : r.index < p.regSpace := by cases p <;> cases r <;> decide

@[simp] theorem regMap_index (r : Reg) : regMap r.index = r := by cases r <;> rfl

theorem byte0_toNat {p : Profile} {n f : Nat} (hn : n < p.opcodeSpace) (hf : f < p.regSpace) :
    (p.byte0 n f).toNat = n * p.regSpace + f := by
  cases p <;> simp only [Profile.opcodeSpace, Profile.regSpace] at hn hf <;>
    simp [Profile.byte0, Profile.regSpace] <;> omega

theorem opcodeField_byte0 {p : Profile} {n f : Nat} (hn : n < p.opcodeSpace) (hf : f < p.regSpace) :
    p.opcodeField (p.byte0 n f) = n := by
  rw [opcodeField_eq, byte0_toNat hn hf]
  cases p <;> simp only [Profile.opcodeSpace, Profile.regSpace] at * <;> omega

theorem regField_byte0 {p : Profile} {n f : Nat} (hn : n < p.opcodeSpace) (hf : f < p.regSpace) :
    p.regField (p.byte0 n f) = f := by
  rw [regField_eq, byte0_toNat hn hf]
  cases p <;> simp only [Profile.opcodeSpace, Profile.regSpace] at * <;> omega

@[simp] theorem regMap_secondField_index (r : Reg) : regMap (secondField (BitVec.ofNat 8 r.index)) = r := by
  cases r <;> rfl

/-! ### The opcode maps -/

/-- The opcode number of a kind is in range and selects the kind. -/
theorem opcodeOf_spec {c : Config} {k : Kind} {n : Nat} (h : c.opcodeOf k = some n) :
    n < c.profile.opcodeSpace ∧ (c.opmap[n]?).join = some k := by
  unfold Config.opcodeOf at h
  obtain ⟨hlt, heq, _⟩ := List.findIdx?_eq_some_iff_getElem.mp h
  simp only [List.length_take] at hlt
  have hn : n < c.opmap.length := by omega
  refine ⟨by omega, ?_⟩
  have : c.opmap[n] = some k := by simpa [List.getElem_take] using heq
  simp [hn, this]

theorem holds_iff (c : Config) (k : Kind) : c.holds k = true ↔ ∃ n, c.opcodeOf k = some n := by
  simp [Config.holds, Option.isSome_iff_exists]

/-- The byte 0 of a kind in the profile selects the kind, and its register field the register. -/
theorem kindOf_byte0 {c : Config} {k : Kind} {n : Nat} (h : c.opcodeOf k = some n) (r : Reg) :
    c.kindOf (c.profile.byte0 n r.index) = some k ∧ regMap (c.profile.regField (c.profile.byte0 n r.index)) = r := by
  obtain ⟨hn, hk⟩ := opcodeOf_spec h
  constructor
  · rw [Config.kindOf, opcodeField_byte0 hn (index_lt _ r), hk]
  · rw [regField_byte0 hn (index_lt _ r), regMap_index]

/-! ### The decoder, one lemma per outcome -/

theorem decode_invalid {c : Config} {b0 : Byte} (rest : List Byte) (h : c.kindOf b0 = none) :
    decode c (b0 :: rest) = .ok (.invalid b0) := by
  simp only [decode, h]

theorem decode_R {c : Config} {b0 : Byte} {k : Kind} (rest : List Byte) (h : c.kindOf b0 = some k)
    (hf : k.format = .R) : decode c (b0 :: rest) = .ok (k.build (regMap (c.profile.regField b0)) .r0 0) := by
  simp only [decode, h, hf]

theorem decode_RR {c : Config} {b0 : Byte} {k : Kind} (b1 : Byte) (rest : List Byte) (h : c.kindOf b0 = some k)
    (hf : k.format = .RR) : decode c (b0 :: b1 :: rest) =
      .ok (k.build (regMap (c.profile.regField b0)) (regMap (secondField b1)) 0) := by
  simp only [decode, h, hf]

theorem decode_RI {c : Config} {b0 : Byte} {k : Kind} (b1 b2 b3 b4 : Byte) (rest : List Byte)
    (h : c.kindOf b0 = some k) (hf : k.format = .RI) : decode c (b0 :: b1 :: b2 :: b3 :: b4 :: rest) =
      .ok (k.build (regMap (c.profile.regField b0)) .r0 (leWord b1 b2 b3 b4)) := by
  simp only [decode, h, hf]

theorem decode_truncated {c : Config} {b0 : Byte} {k : Kind} (rest : List Byte) (h : c.kindOf b0 = some k)
    (hlen : (b0 :: rest).length < k.format.len) : decode c (b0 :: rest) = .error .truncatedOperand := by
  cases hf : k.format <;> rw [hf] at hlen <;> simp only [decode, h, hf]
  · simp [Format.len] at hlen
  · match rest with
    | [] => rfl
    | _ :: _ => simp [Format.len] at hlen
  · match rest with
    | [] | [_] | [_, _] | [_, _, _] => rfl
    | _ :: _ :: _ :: _ :: _ => exact absurd hlen (by simp only [List.length_cons, Format.len]; omega)

/-- Everything the decoder can answer. -/
theorem decode_cases (c : Config) (bytes : List Byte) :
    (bytes = [] ∧ decode c bytes = .error .truncatedOperand) ∨
    (∃ b0 rest, bytes = b0 :: rest ∧ c.kindOf b0 = none ∧ decode c bytes = .ok (.invalid b0)) ∨
    (∃ b0 rest k, bytes = b0 :: rest ∧ c.kindOf b0 = some k ∧ bytes.length < k.format.len ∧
      decode c bytes = .error .truncatedOperand) ∨
    (∃ b0 rest k, bytes = b0 :: rest ∧ c.kindOf b0 = some k ∧ k.format = .R ∧
      decode c bytes = .ok (k.build (regMap (c.profile.regField b0)) .r0 0)) ∨
    (∃ b0 b1 rest k, bytes = b0 :: b1 :: rest ∧ c.kindOf b0 = some k ∧ k.format = .RR ∧
      decode c bytes = .ok (k.build (regMap (c.profile.regField b0)) (regMap (secondField b1)) 0)) ∨
    (∃ b0 b1 b2 b3 b4 rest k, bytes = b0 :: b1 :: b2 :: b3 :: b4 :: rest ∧ c.kindOf b0 = some k ∧ k.format = .RI ∧
      decode c bytes = .ok (k.build (regMap (c.profile.regField b0)) .r0 (leWord b1 b2 b3 b4))) := by
  match bytes with
  | [] => exact .inl ⟨rfl, rfl⟩
  | b0 :: rest =>
    refine .inr ?_
    cases h : c.kindOf b0 with
    | none => exact .inl ⟨b0, rest, rfl, h, decode_invalid rest h⟩
    | some k =>
      refine .inr ?_
      by_cases hlen : (b0 :: rest).length < k.format.len
      · exact .inl ⟨b0, rest, k, rfl, h, hlen, decode_truncated rest h hlen⟩
      refine .inr ?_
      cases hf : k.format with
      | R => exact .inl ⟨b0, rest, k, rfl, h, hf, decode_R rest h hf⟩
      | RR =>
        match rest with
        | [] => simp [hf, Format.len] at hlen
        | b1 :: rest => exact .inr (.inl ⟨b0, b1, rest, k, rfl, h, hf, decode_RR b1 rest h hf⟩)
      | RI =>
        match rest with
        | [] | [_] | [_, _] | [_, _, _] => simp [hf, Format.len] at hlen
        | b1 :: b2 :: b3 :: b4 :: rest =>
          exact .inr (.inr ⟨b0, b1, b2, b3, b4, rest, k, rfl, h, hf, decode_RI b1 b2 b3 b4 rest h hf⟩)

/-- The decoder's only error is TruncatedOperand. -/
theorem decode_error {c : Config} {bytes : List Byte} {f : Cause} (h : decode c bytes = .error f) :
    f = .truncatedOperand := by
  rcases decode_cases c bytes with ⟨_, e⟩ | ⟨_, _, _, _, e⟩ | ⟨_, _, _, _, _, _, e⟩ | ⟨_, _, _, _, _, _, e⟩ |
    ⟨_, _, _, _, _, _, _, e⟩ | ⟨_, _, _, _, _, _, _, _, _, _, e⟩ <;> rw [e] at h <;> simp_all

/-! ### Built instructions -/

@[simp] theorem kind?_build (k : Kind) (rd rs : Reg) (imm : Word) : (k.build rd rs imm).kind? = some k := by
  cases k <;> rfl

@[simp] theorem len_build (k : Kind) (rd rs : Reg) (imm : Word) : (k.build rd rs imm).len = k.format.len := by
  simp [Instr.len]

theorem fields_build_rd (k : Kind) (rd rs : Reg) (imm : Word) : (k.build rd rs imm).fields.1 = rd := by
  cases k <;> rfl

theorem fields_build_rs {k : Kind} (rd rs : Reg) (imm : Word) (h : k.format = .RR) :
    (k.build rd rs imm).fields.2.1 = rs := by
  cases k <;> first | rfl | exact absurd h (by decide)

theorem fields_build_imm {k : Kind} (rd rs : Reg) (imm : Word) (h : k.format = .RI) :
    (k.build rd rs imm).fields.2.2 = imm := by
  cases k <;> first | rfl | exact absurd h (by decide)

/-! ### The decoder's outputs, one lemma per outcome (R90) -/

theorem decoderOut_nil (c : Config) : decoderOut c [] = ⟨none, .r0, .r0, 0, 0, .truncatedOperand⟩ := rfl

theorem decoderOut_invalid {c : Config} {b0 : Byte} (rest : List Byte) (h : c.kindOf b0 = none) :
    decoderOut c (b0 :: rest) = ⟨none, regMap (c.profile.regField b0), .r0, 0, 0, .invalidOpcode⟩ := by
  simp only [decoderOut, decode_invalid rest h, Instr.kind?]

theorem decoderOut_truncated {c : Config} {b0 : Byte} {k : Kind} (rest : List Byte) (h : c.kindOf b0 = some k)
    (hlen : (b0 :: rest).length < k.format.len) :
    decoderOut c (b0 :: rest) = ⟨none, regMap (c.profile.regField b0), .r0, 0, 0, .truncatedOperand⟩ := by
  simp only [decoderOut, decode_truncated rest h hlen]

theorem decoderOut_R {c : Config} {b0 : Byte} {k : Kind} (rest : List Byte) (h : c.kindOf b0 = some k)
    (hf : k.format = .R) :
    decoderOut c (b0 :: rest) = ⟨some k, regMap (c.profile.regField b0), .r0, 0, k.format.len, .none⟩ := by
  simp only [decoderOut, decode_R rest h hf, kind?_build, len_build, fields_build_rd]
  cases k <;> rfl

theorem decoderOut_RR {c : Config} {b0 : Byte} {k : Kind} (b1 : Byte) (rest : List Byte) (h : c.kindOf b0 = some k)
    (hf : k.format = .RR) : decoderOut c (b0 :: b1 :: rest) =
      ⟨some k, regMap (c.profile.regField b0), regMap (secondField b1), 0, k.format.len, .none⟩ := by
  simp only [decoderOut, decode_RR b1 rest h hf, kind?_build, len_build, fields_build_rd, fields_build_rs _ _ _ hf]
  cases k <;> rfl

theorem decoderOut_RI {c : Config} {b0 : Byte} {k : Kind} (b1 b2 b3 b4 : Byte) (rest : List Byte)
    (h : c.kindOf b0 = some k) (hf : k.format = .RI) : decoderOut c (b0 :: b1 :: b2 :: b3 :: b4 :: rest) =
      ⟨some k, regMap (c.profile.regField b0), .r0, leWord b1 b2 b3 b4, k.format.len, .none⟩ := by
  simp only [decoderOut, decode_RI b1 b2 b3 b4 rest h hf, kind?_build, len_build, fields_build_rd,
    fields_build_imm _ _ _ hf]
  cases k <;> rfl

/-! ### The encoder -/

theorem assemble_of {c : Config} {k : Kind} {n : Nat} (h : c.opcodeOf k = some n) (rd : Reg) (ops : List Byte) :
    c.assemble k rd ops = c.profile.byte0 n rd.index :: ops := by
  simp only [Config.assemble, h]

/-- Decoding an assembled R-format instruction. -/
theorem decode_assemble_R {c : Config} {k : Kind} (hk : c.holds k = true) (hf : k.format = .R) (rd : Reg)
    (rest : List Byte) : decode c (c.assemble k rd [] ++ rest) = .ok (k.build rd .r0 0) := by
  obtain ⟨n, hn⟩ := (holds_iff c k).mp hk
  obtain ⟨h1, h2⟩ := kindOf_byte0 hn rd
  rw [assemble_of hn, List.cons_append, decode_R _ h1 hf, h2]

/-- Decoding an assembled RR-format instruction. -/
theorem decode_assembleRR {c : Config} {k : Kind} (hk : c.holds k = true) (hf : k.format = .RR) (rd rs : Reg)
    (rest : List Byte) : decode c (c.assembleRR k rd rs ++ rest) = .ok (k.build rd rs 0) := by
  obtain ⟨n, hn⟩ := (holds_iff c k).mp hk
  obtain ⟨h1, h2⟩ := kindOf_byte0 hn rd
  rw [Config.assembleRR, assemble_of hn, List.cons_append, List.cons_append, decode_RR _ _ h1 hf, h2,
    regMap_secondField_index]

/-- Decoding an assembled RI-format instruction. -/
theorem decode_assembleRI {c : Config} {k : Kind} (hk : c.holds k = true) (hf : k.format = .RI) (rd : Reg) (imm : Word)
    (rest : List Byte) : decode c (c.assembleRI k rd imm ++ rest) = .ok (k.build rd .r0 imm) := by
  obtain ⟨n, hn⟩ := (holds_iff c k).mp hk
  obtain ⟨h1, h2⟩ := kindOf_byte0 hn rd
  rw [Config.assembleRI, assemble_of hn]
  simp only [List.cons_append]
  rw [decode_RI _ _ _ _ _ h1 hf, h2, leWord_byteOf]

theorem assemble_length {c : Config} {k : Kind} (hk : c.holds k = true) (rd : Reg) (ops : List Byte) :
    (c.assemble k rd ops).length = ops.length + 1 := by
  obtain ⟨n, hn⟩ := (holds_iff c k).mp hk
  rw [assemble_of hn, List.length_cons]

end Sys2Proof
end

