-- ==== Sys2Proof/Laws/State.lean ====
section
/-! SUPPORT. One lemma per field per update of State, and the laws of the register accessors. -/

namespace Sys2Proof.Machine

@[simp] theorem setX_cfg (s : State) (r : Reg) (v : Word) : (s.setX r v).cfg = s.cfg := by cases r <;> rfl
@[simp] theorem setX_run (s : State) (r : Reg) (v : Word) : (s.setX r v).run = s.run := by cases r <;> rfl
@[simp] theorem setX_cause (s : State) (r : Reg) (v : Word) : (s.setX r v).cause = s.cause := by cases r <;> rfl
@[simp] theorem setX_ram (s : State) (r : Reg) (v : Word) : (s.setX r v).ram = s.ram := by cases r <;> rfl
@[simp] theorem setX_dev (s : State) (r : Reg) (v : Word) : (s.setX r v).dev = s.dev := by cases r <;> rfl

@[simp] theorem x_setX_self (s : State) (r : Reg) (v : Word) : (s.setX r v).x r = v := by cases r <;> rfl

theorem x_setX_ne (s : State) (v : Word) {r q : Reg} (h : q ≠ r) : (s.setX r v).x q = s.x q := by
  cases r <;> cases q <;> first | rfl | exact absurd rfl h

theorem x_setX (s : State) (r q : Reg) (v : Word) : (s.setX r v).x q = if q = r then v else s.x q := by
  split
  · next h => rw [h, x_setX_self]
  · next h => exact x_setX_ne s v h

@[simp] theorem setX_x_self (s : State) (r : Reg) : s.setX r (s.x r) = s := by cases r <;> rfl

@[simp] theorem setX_setX (s : State) (r : Reg) (v w : Word) : (s.setX r v).setX r w = s.setX r w := by
  cases r <;> rfl

@[simp] theorem setX_array (s : State) (r : Reg) (v : Word) (g : Region) : (s.setX r v).array g = s.array g := by
  cases g <;> simp [State.array]

@[simp] theorem advance_cfg (s : State) (n : Nat) : (s.advance n).cfg = s.cfg := setX_cfg ..
@[simp] theorem advance_run (s : State) (n : Nat) : (s.advance n).run = s.run := setX_run ..
@[simp] theorem advance_cause (s : State) (n : Nat) : (s.advance n).cause = s.cause := setX_cause ..
@[simp] theorem advance_ram (s : State) (n : Nat) : (s.advance n).ram = s.ram := setX_ram ..
@[simp] theorem advance_dev (s : State) (n : Nat) : (s.advance n).dev = s.dev := setX_dev ..
@[simp] theorem advance_array (s : State) (n : Nat) (g : Region) : (s.advance n).array g = s.array g := setX_array ..
@[simp] theorem advance_ip (s : State) (n : Nat) : (s.advance n).x .ip = s.x .ip + BitVec.ofNat 32 n := x_setX_self ..

theorem advance_x_ne (s : State) (n : Nat) {r : Reg} (h : r ≠ .ip) : (s.advance n).x r = s.x r := x_setX_ne s _ h

@[simp] theorem raise_cfg (s : State) (f : Cause) : (s.raise f).cfg = s.cfg := rfl
@[simp] theorem raise_run (s : State) (f : Cause) : (s.raise f).run = .halted := rfl
@[simp] theorem raise_cause (s : State) (f : Cause) : (s.raise f).cause = f := rfl
@[simp] theorem raise_ram (s : State) (f : Cause) : (s.raise f).ram = s.ram := rfl
@[simp] theorem raise_dev (s : State) (f : Cause) : (s.raise f).dev = s.dev := rfl
@[simp] theorem raise_regs (s : State) (f : Cause) : (s.raise f).regs = s.regs := rfl
@[simp] theorem raise_x (s : State) (f : Cause) (r : Reg) : (s.raise f).x r = s.x r := by cases r <;> rfl
@[simp] theorem raise_array (s : State) (f : Cause) (g : Region) : (s.raise f).array g = s.array g := by cases g <;> rfl

@[simp] theorem haltNormally_cfg (s : State) : s.haltNormally.cfg = s.cfg := rfl
@[simp] theorem haltNormally_run (s : State) : s.haltNormally.run = .halted := rfl
@[simp] theorem haltNormally_cause (s : State) : s.haltNormally.cause = s.cause := rfl
@[simp] theorem haltNormally_ram (s : State) : s.haltNormally.ram = s.ram := rfl
@[simp] theorem haltNormally_dev (s : State) : s.haltNormally.dev = s.dev := rfl
@[simp] theorem haltNormally_x (s : State) (r : Reg) : s.haltNormally.x r = s.x r := by cases r <;> rfl
@[simp] theorem haltNormally_array (s : State) (g : Region) : s.haltNormally.array g = s.array g := by cases g <;> rfl

@[simp] theorem array_ram (s : State) : s.array .ram = s.ram := rfl
@[simp] theorem array_dev (s : State) : s.array .dev = s.dev := rfl
@[simp] theorem setArray_ram_ram (s : State) (m : Memory) : (s.setArray .ram m).ram = m := rfl
@[simp] theorem setArray_ram_dev (s : State) (m : Memory) : (s.setArray .ram m).dev = s.dev := rfl
@[simp] theorem setArray_dev_ram (s : State) (m : Memory) : (s.setArray .dev m).ram = s.ram := rfl
@[simp] theorem setArray_dev_dev (s : State) (m : Memory) : (s.setArray .dev m).dev = m := rfl
@[simp] theorem setArray_cfg (s : State) (g : Region) (m : Memory) : (s.setArray g m).cfg = s.cfg := by cases g <;> rfl
@[simp] theorem setArray_run (s : State) (g : Region) (m : Memory) : (s.setArray g m).run = s.run := by cases g <;> rfl
@[simp] theorem setArray_cause (s : State) (g : Region) (m : Memory) : (s.setArray g m).cause = s.cause := by
  cases g <;> rfl
@[simp] theorem setArray_regs (s : State) (g : Region) (m : Memory) : (s.setArray g m).regs = s.regs := by
  cases g <;> rfl
@[simp] theorem setArray_x (s : State) (g : Region) (m : Memory) (r : Reg) : (s.setArray g m).x r = s.x r := by
  cases g <;> cases r <;> rfl
theorem setArray_setX (s : State) (g : Region) (m : Memory) (r : Reg) (v : Word) :
    (s.setArray g m).setX r v = (s.setX r v).setArray g m := by cases g <;> cases r <;> rfl
@[simp] theorem array_setArray_self (s : State) (g : Region) (m : Memory) : (s.setArray g m).array g = m := by
  cases g <;> rfl

theorem array_setArray_ne (s : State) (m : Memory) {g h : Region} (hne : h ≠ g) :
    (s.setArray g m).array h = s.array h := by
  cases g <;> cases h <;> first | rfl | exact absurd rfl hne

@[simp] theorem recoded_run (s : State) (p : Profile) (m5 m4 : List (Option Kind)) :
    (s.recoded p m5 m4).run = s.run := rfl
@[simp] theorem recoded_cause (s : State) (p : Profile) (m5 m4 : List (Option Kind)) :
    (s.recoded p m5 m4).cause = s.cause := rfl
@[simp] theorem recoded_x (s : State) (p : Profile) (m5 m4 : List (Option Kind)) (r : Reg) :
    (s.recoded p m5 m4).x r = s.x r := by cases r <;> rfl
@[simp] theorem recoded_array (s : State) (p : Profile) (m5 m4 : List (Option Kind)) (g : Region) :
    (s.recoded p m5 m4).array g = s.array g := by cases g <;> rfl
@[simp] theorem recoded_translateAddr (s : State) (p : Profile) (m5 m4 : List (Option Kind)) (a : Word) :
    translateAddr (s.recoded p m5 m4).cfg a = translateAddr s.cfg a := rfl
theorem recoded_setX (s : State) (p : Profile) (m5 m4 : List (Option Kind)) (r : Reg) (v : Word) :
    (s.recoded p m5 m4).setX r v = (s.setX r v).recoded p m5 m4 := by cases r <;> rfl
theorem recoded_setArray (s : State) (p : Profile) (m5 m4 : List (Option Kind)) (g : Region) (m : Memory) :
    (s.recoded p m5 m4).setArray g m = (s.setArray g m).recoded p m5 m4 := by cases g <;> rfl

@[simp] theorem hostReset_eq_boot (s : State) (c : Config) : s.hostReset c = State.boot c := rfl

end Sys2Proof.Machine
end

