-- ==== Sys2Proof/Laws/Memory.lean ====
section
/-! SUPPORT. The laws of a byte array: read after write, frame, canonical form, size. -/

namespace Sys2Proof.Machine

@[simp] theorem read_nil (a : Nat) : Memory.read [] a = Memory.unlisted := rfl

theorem read_cons (k : Nat) (v : Byte) (m : Memory) (a : Nat) :
    Memory.read ((k, v) :: m) a = if k = a then v else m.read a := rfl

theorem read_erase_self (m : Memory) (a : Nat) : (m.erase a).read a = Memory.unlisted := by
  induction m with
  | nil => rfl
  | cons cell m ih =>
    obtain ⟨k, v⟩ := cell
    by_cases h : k = a
    · simpa [Memory.erase, h] using ih
    · simpa [Memory.erase, h, read_cons] using ih

theorem read_erase_ne (m : Memory) {a b : Nat} (h : b ≠ a) : (m.erase a).read b = m.read b := by
  induction m with
  | nil => rfl
  | cons cell m ih =>
    obtain ⟨k, v⟩ := cell
    by_cases hk : k = a
    · have : k ≠ b := fun e => h (e ▸ hk)
      simpa [Memory.erase, hk, read_cons, h.symm] using ih
    · simp [Memory.erase, hk, read_cons, ih]

theorem read_put_self (m : Memory) (a : Nat) (v : Byte) : (m.put a v).read a = v := by
  induction m with
  | nil => simp [Memory.put, read_cons]
  | cons cell m ih =>
    obtain ⟨k, w⟩ := cell
    rcases Nat.lt_trichotomy k a with h | h | h
    · simp [Memory.put, h, read_cons, Nat.ne_of_lt h, ih]
    · simp [Memory.put, h, read_cons]
    · simp [Memory.put, Nat.not_lt.mpr (Nat.le_of_lt h), Nat.ne_of_gt h, read_cons]

theorem read_put_ne (m : Memory) (v : Byte) {a b : Nat} (hb : b ≠ a) : (m.put a v).read b = m.read b := by
  induction m with
  | nil => simp [Memory.put, read_cons, hb.symm]
  | cons cell m ih =>
    obtain ⟨k, w⟩ := cell
    rcases Nat.lt_trichotomy k a with h | h | h
    · simp [Memory.put, h, read_cons, ih]
    · simp [Memory.put, h, read_cons, hb.symm]
    · simp [Memory.put, Nat.not_lt.mpr (Nat.le_of_lt h), Nat.ne_of_gt h, read_cons, hb.symm]

/-- A read after a write to the same address gives the byte written. -/
@[simp] theorem read_write_self (m : Memory) (a : Nat) (v : Byte) : (m.write a v).read a = v := by
  unfold Memory.write
  split
  · next h => rw [read_erase_self, h]
  · exact read_put_self m a v

/-- A write leaves every other address alone. -/
theorem read_write_ne (m : Memory) (v : Byte) {a b : Nat} (h : b ≠ a) : (m.write a v).read b = m.read b := by
  unfold Memory.write
  split
  · exact read_erase_ne m h
  · exact read_put_ne m v h

theorem read_write (m : Memory) (a b : Nat) (v : Byte) : (m.write a v).read b = if b = a then v else m.read b := by
  split
  · next h => rw [h, read_write_self]
  · next h => exact read_write_ne m v h

theorem wfFrom_mono {m : Memory} {lo lo' : Nat} (h : lo' ≤ lo) (hm : m.wfFrom lo = true) : m.wfFrom lo' = true := by
  cases m with
  | nil => rfl
  | cons cell m =>
    obtain ⟨k, v⟩ := cell
    simp only [Memory.wfFrom, Bool.and_eq_true, decide_eq_true_eq] at hm ⊢
    exact ⟨⟨Nat.le_trans h hm.1.1, hm.1.2⟩, hm.2⟩

theorem erase_wfFrom {m : Memory} {lo : Nat} (a : Nat) (hm : m.wfFrom lo = true) : (m.erase a).wfFrom lo = true := by
  induction m generalizing lo with
  | nil => rfl
  | cons cell m ih =>
    obtain ⟨k, v⟩ := cell
    simp only [Memory.wfFrom, Bool.and_eq_true, decide_eq_true_eq] at hm
    by_cases h : k = a
    · simpa [Memory.erase, h] using wfFrom_mono (Nat.le_succ_of_le hm.1.1) (ih hm.2)
    · simp [Memory.erase, h, Memory.wfFrom, hm.1.1, hm.1.2, ih hm.2]

theorem put_wfFrom {m : Memory} {lo a : Nat} {b : Byte} (hlo : lo ≤ a) (hb : b ≠ Memory.unlisted)
    (hm : m.wfFrom lo = true) : (m.put a b).wfFrom lo = true := by
  induction m generalizing lo with
  | nil => simp [Memory.put, Memory.wfFrom, hlo, hb]
  | cons cell m ih =>
    obtain ⟨k, v⟩ := cell
    simp only [Memory.wfFrom, Bool.and_eq_true, decide_eq_true_eq] at hm
    rcases Nat.lt_trichotomy k a with h | h | h
    · simp [Memory.put, h, Memory.wfFrom, hm.1.1, hm.1.2, ih h hm.2]
    · subst h
      simp [Memory.put, Memory.wfFrom, hlo, hb, hm.2]
    · simp [Memory.put, Nat.not_lt.mpr (Nat.le_of_lt h), Nat.ne_of_gt h, Memory.wfFrom, hlo, hb, hm.1.2, hm.2,
        Nat.succ_le_of_lt h]

/-- A write keeps the canonical form. -/
theorem write_wf {m : Memory} (a : Nat) (b : Byte) (hm : m.wf = true) : (m.write a b).wf = true := by
  unfold Memory.write
  split
  · exact erase_wfFrom a hm
  · next h => exact put_wfFrom (Nat.zero_le a) h hm

theorem erase_below {m : Memory} {n : Nat} (a : Nat) (hm : m.below n = true) : (m.erase a).below n = true := by
  induction m with
  | nil => rfl
  | cons cell m ih =>
    obtain ⟨k, v⟩ := cell
    simp only [Memory.below, List.all_cons, Bool.and_eq_true, decide_eq_true_eq] at hm ih ⊢
    by_cases h : k = a
    · simpa only [Memory.erase, h, if_true] using ih hm.2
    · simp only [Memory.erase, h, if_false, List.all_cons, Bool.and_eq_true, decide_eq_true_eq]
      exact ⟨hm.1, ih hm.2⟩

theorem put_below {m : Memory} {n a : Nat} (b : Byte) (ha : a < n) (hm : m.below n = true) :
    (m.put a b).below n = true := by
  induction m with
  | nil => simp [Memory.put, Memory.below, ha]
  | cons cell m ih =>
    obtain ⟨k, v⟩ := cell
    simp only [Memory.below, List.all_cons, Bool.and_eq_true, decide_eq_true_eq] at hm ih ⊢
    rcases Nat.lt_trichotomy k a with h | h | h
    · simp only [Memory.put, h, if_true, List.all_cons, Bool.and_eq_true, decide_eq_true_eq]
      exact ⟨hm.1, ih hm.2⟩
    · simp only [Memory.put, h, Nat.lt_irrefl, if_false, if_true, List.all_cons, Bool.and_eq_true, decide_eq_true_eq]
      exact ⟨ha, hm.2⟩
    · simp only [Memory.put, Nat.not_lt.mpr (Nat.le_of_lt h), Nat.ne_of_gt h, if_false, List.all_cons,
        Bool.and_eq_true, decide_eq_true_eq]
      exact ⟨ha, hm.1, hm.2⟩

/-- A write inside the array keeps its size. -/
theorem write_below {m : Memory} {n a : Nat} (b : Byte) (ha : a < n) (hm : m.below n = true) :
    (m.write a b).below n = true := by
  unfold Memory.write
  split
  · exact erase_below a hm
  · exact put_below b ha hm

/-- What reading one byte gives after a word is stored: one of the four bytes, or what was there. -/
theorem read_write32 (m : Memory) (off : Nat) (v : Word) (a : Nat) :
    (m.write32 off v).read a =
      if off ≤ a ∧ a < off + 4 then byteOf (a - off) v else m.read a := by
  unfold Memory.write32
  simp only [read_write]
  by_cases h : off ≤ a ∧ a < off + 4
  · obtain ⟨k, rfl⟩ := Nat.exists_eq_add_of_le h.1
    have : k < 4 := by omega
    have hk : k = 0 ∨ k = 1 ∨ k = 2 ∨ k = 3 := by omega
    rcases hk with rfl | rfl | rfl | rfl <;> simp
  · rw [if_neg h, if_neg (by omega), if_neg (by omega), if_neg (by omega), if_neg (by omega)]

theorem write32_wf {m : Memory} (off : Nat) (v : Word) (hm : m.wf = true) : (m.write32 off v).wf = true :=
  write_wf _ _ (write_wf _ _ (write_wf _ _ (write_wf _ _ hm)))

theorem write32_below {m : Memory} {n off : Nat} (v : Word) (h : off + 4 ≤ n) (hm : m.below n = true) :
    (m.write32 off v).below n = true :=
  write_below _ (by omega) (write_below _ (by omega) (write_below _ (by omega) (write_below _ (by omega) hm)))

theorem load_wfFrom (base : Nat) (bytes : List Byte) : (Memory.load base bytes).wfFrom base = true := by
  induction bytes generalizing base with
  | nil => rfl
  | cons b bytes ih =>
    by_cases h : b = Memory.unlisted
    · simpa [Memory.load, h] using wfFrom_mono (Nat.le_succ base) (ih (base + 1))
    · simp [Memory.load, h, Memory.wfFrom, ih (base + 1)]

/-- The loaded image is in canonical form. -/
theorem load_wf (base : Nat) (bytes : List Byte) : (Memory.load base bytes).wf = true :=
  wfFrom_mono (Nat.zero_le base) (load_wfFrom base bytes)

theorem load_below {n : Nat} (base : Nat) (bytes : List Byte) (h : base + bytes.length ≤ n) :
    (Memory.load base bytes).below n = true := by
  induction bytes generalizing base with
  | nil => rfl
  | cons b bytes ih =>
    simp only [List.length_cons] at h
    have ih' := ih (base + 1) (by omega)
    by_cases hb : b = Memory.unlisted
    · simpa [Memory.load, hb] using ih'
    · simp only [Memory.load, hb, if_false, Memory.below, List.all_cons, Bool.and_eq_true, decide_eq_true_eq]
      exact ⟨by omega, ih'⟩

theorem read_load_low {base a : Nat} (bytes : List Byte) (h : a < base) :
    (Memory.load base bytes).read a = Memory.unlisted := by
  induction bytes generalizing base with
  | nil => rfl
  | cons b bytes ih =>
    by_cases hb : b = Memory.unlisted
    · simpa [Memory.load, hb] using ih (Nat.lt_succ_of_lt h)
    · simpa [Memory.load, hb, read_cons, Nat.ne_of_gt h] using ih (Nat.lt_succ_of_lt h)

/-- Byte `k` of the image is at `base + k`; everything else is unlisted. -/
theorem read_load (base : Nat) (bytes : List Byte) (k : Nat) :
    (Memory.load base bytes).read (base + k) = bytes.getD k Memory.unlisted := by
  induction bytes generalizing base k with
  | nil => simp [Memory.load]
  | cons b bytes ih =>
    cases k with
    | zero =>
      by_cases hb : b = Memory.unlisted
      · simp [Memory.load, hb, read_load_low bytes (Nat.lt_succ_self base)]
      · simp [Memory.load, hb, read_cons]
    | succ k =>
      have hk : base + (k + 1) = base + 1 + k := by omega
      by_cases hb : b = Memory.unlisted
      · simpa [Memory.load, hb, hk] using ih (base + 1) k
      · have hne : base ≠ base + 1 + k := by omega
        simpa [Memory.load, hb, hk, read_cons, hne] using ih (base + 1) k

end Sys2Proof.Machine
end

