-- ==== Sys2Proof/Laws/Exec.lean ====
section
/-! SUPPORT. What the shared operations and each meaning can do, said once: translation and access, retirement, and one
equation per instruction. -/

namespace Sys2Proof.Machine

/-! ### Frames of single updates -/

theorem MemoryKept.refl (s : State) : MemoryKept s s := fun _ _ => rfl

theorem StatusKept.refl (s : State) : StatusKept s s := ⟨rfl, rfl, rfl⟩

/-- Writing a result and advancing is `ResultIn`. -/
theorem resultIn_setX_advance (s : State) (rd : Reg) (v : Word) (len : Nat) :
    ResultIn s ((s.setX rd v).advance len) rd v len := by
  refine ⟨?_, fun h => ?_, fun r h h' => ?_, ⟨?_, ?_, ?_⟩, fun g a => ?_⟩
  · rw [advance_ip, x_setX]
    by_cases h : Reg.ip = rd
    · rw [if_pos h, if_pos h.symm]
    · rw [if_neg h, if_neg fun e => h e.symm]
  · rw [advance_x_ne _ _ h, x_setX_self]
  · rw [advance_x_ne _ _ h', x_setX_ne _ _ h]
  · simp
  · simp
  · simp
  · simp

/-- Setting the pointer is `PointerAt`. -/
theorem pointerAt_setX (s : State) (v : Word) : PointerAt s (s.setX .ip v) v :=
  ⟨x_setX_self .., fun _ h => x_setX_ne _ _ h, ⟨by simp, by simp, by simp⟩, fun g a => by simp⟩

/-- Advancing is `PointerAt` the next instruction. -/
theorem pointerAt_advance (s : State) (len : Nat) : PointerAt s (s.advance len) (s.x .ip + BitVec.ofNat 32 len) :=
  pointerAt_setX s _

/-- The entry of a fault is `FaultEntered`. -/
theorem faultEntered_raise (s : State) (f : Cause) : FaultEntered s (s.raise f) f :=
  ⟨rfl, rfl, rfl, raise_x s f, fun g a => by simp⟩

/-- Storing a word and advancing is `StoredWord`. -/
theorem storedWord_setArray_advance (s : State) (g : Region) (off : Nat) (v : Word) (len : Nat) :
    StoredWord s ((s.setArray g ((s.array g).write32 off v)).advance len) g off v len := by
  refine ⟨by simp, fun r h => ?_, ⟨by simp, by simp, by simp⟩, fun k hk => ?_, fun h a hne => ?_⟩
  · rw [advance_x_ne _ _ h, setArray_x]
  · rw [advance_array, array_setArray_self, read_write32, if_pos ⟨by omega, by omega⟩]
    congr 1; omega
  · rw [advance_array]
    by_cases hg : h = g
    · subst hg
      rw [array_setArray_self, read_write32, if_neg fun e => hne ⟨rfl, e⟩]
    · rw [array_setArray_ne _ _ hg]

/-! ### Translation and access -/

/-- Everything `Translate` can answer (R56). -/
theorem translateAddr_eq_some {c : Config} {a : Word} {g : Region} {off : Nat} (h : translateAddr c a = some (g, off)) :
    (g = .dev ∧ c.mmioEn = true ∧ c.devBase ≤ a.toNat ∧ off = a.toNat - c.devBase ∧ off + 4 ≤ c.devSize) ∨
    (g = .ram ∧ ¬(c.mmioEn = true ∧ c.devBase ≤ a.toNat) ∧ off = a.toNat ∧ off + 4 ≤ c.memSize) := by
  unfold translateAddr at h
  split at h
  · next hd =>
    split at h
    · next hb =>
      simp only [Option.some.injEq, Prod.mk.injEq] at h
      exact .inl ⟨h.1.symm, hd.1, hd.2, h.2.symm, h.2 ▸ hb⟩
    · cases h
  · next hd =>
    split at h
    · next hb =>
      simp only [Option.some.injEq, Prod.mk.injEq] at h
      exact .inr ⟨h.1.symm, hd, h.2.symm, h.2 ▸ hb⟩
    · cases h

theorem memRead_some {s : State} {a : Word} {g : Region} {off : Nat} (h : translateAddr s.cfg a = some (g, off)) :
    memRead s a = some ((s.array g).read32 off) := by simp only [memRead, h]

theorem memRead_none {s : State} {a : Word} (h : translateAddr s.cfg a = none) : memRead s a = none := by
  simp only [memRead, h]

theorem memWrite_some {s : State} {a v : Word} {g : Region} {off : Nat} (h : translateAddr s.cfg a = some (g, off)) :
    memWrite s a v = some (s.setArray g ((s.array g).write32 off v)) := by simp only [memWrite, h]

theorem memWrite_none {s : State} {a v : Word} (h : translateAddr s.cfg a = none) : memWrite s a v = none := by
  simp only [memWrite, h]

/-! ### Retirement -/

@[simp] theorem retire_applyResult (s : State) (len : Nat) (rd : Reg) (v : Word) :
    retire s len (applyResult s rd v) = .next ((s.setX rd v).advance len) := rfl

theorem retire_applyJump (s : State) (len : Nat) (take : Bool) (target : Word) :
    retire s len (applyJump s take target) = .next (if take then s.setX .ip target else s.advance len) := by
  cases take <;> rfl

theorem retire_applyLoad_some {s : State} {a : Word} {g : Region} {off : Nat} (len : Nat) (rd : Reg)
    (h : translateAddr s.cfg a = some (g, off)) :
    retire s len (applyLoad s rd a) = .next ((s.setX rd ((s.array g).read32 off)).advance len) := by
  simp only [applyLoad, memRead_some h, retire]

theorem retire_applyLoad_none {s : State} {a : Word} (len : Nat) (rd : Reg) (h : translateAddr s.cfg a = none) :
    retire s len (applyLoad s rd a) = .next (s.raise .boundsViolation) := by
  simp only [applyLoad, memRead_none h, retire]

theorem retire_applyStore_some {s : State} {a : Word} {g : Region} {off : Nat} (len : Nat) (v : Word)
    (h : translateAddr s.cfg a = some (g, off)) :
    retire s len (applyStore s a v) = .next ((s.setArray g ((s.array g).write32 off v)).advance len) := by
  simp only [applyStore, memWrite_some h, retire]

theorem retire_applyStore_none {s : State} {a : Word} (len : Nat) (v : Word) (h : translateAddr s.cfg a = none) :
    retire s len (applyStore s a v) = .next (s.raise .boundsViolation) := by
  simp only [applyStore, memWrite_none h, retire]

/-! ### One equation per instruction that always retires by a register write or a jump -/

theorem exec_movi (rd : Reg) (imm : Word) (s : State) :
    exec (.movi rd imm) s = .next ((s.setX rd imm).advance 5) := rfl
theorem exec_mov (rd rs : Reg) (s : State) :
    exec (.mov rd rs) s = .next ((s.setX rd (s.x rs)).advance 2) := rfl
theorem exec_addi (rd : Reg) (imm : Word) (s : State) :
    exec (.addi rd imm) s = .next ((s.setX rd (s.x rd + imm)).advance 5) := rfl
theorem exec_add (rd rs : Reg) (s : State) :
    exec (.add rd rs) s = .next ((s.setX rd (s.x rd + s.x rs)).advance 2) := rfl
theorem exec_subi (rd : Reg) (imm : Word) (s : State) :
    exec (.subi rd imm) s = .next ((s.setX rd (s.x rd - imm)).advance 5) := rfl
theorem exec_sub (rd rs : Reg) (s : State) :
    exec (.sub rd rs) s = .next ((s.setX rd (s.x rd - s.x rs)).advance 2) := rfl
theorem exec_andi (rd : Reg) (imm : Word) (s : State) :
    exec (.andi rd imm) s = .next ((s.setX rd (s.x rd &&& imm)).advance 5) := rfl
theorem exec_andr (rd rs : Reg) (s : State) :
    exec (.andr rd rs) s = .next ((s.setX rd (s.x rd &&& s.x rs)).advance 2) := rfl
theorem exec_ori (rd : Reg) (imm : Word) (s : State) :
    exec (.ori rd imm) s = .next ((s.setX rd (s.x rd ||| imm)).advance 5) := rfl
theorem exec_orr (rd rs : Reg) (s : State) :
    exec (.orr rd rs) s = .next ((s.setX rd (s.x rd ||| s.x rs)).advance 2) := rfl
theorem exec_notr (rd : Reg) (s : State) :
    exec (.notr rd) s = .next ((s.setX rd (~~~ s.x rd)).advance 1) := rfl
theorem exec_je (rd : Reg) (imm : Word) (s : State) :
    exec (.je rd imm) s = .next (if s.x rd = s.x .fl then s.setX .ip imm else s.advance 5) := by
  simp [exec, execJe, retire_applyJump, aluEngine, cmpEq, Format.len]
theorem exec_jl (rd : Reg) (imm : Word) (s : State) :
    exec (.jl rd imm) s = .next (if (s.x rd).toNat < (s.x .fl).toNat then s.setX .ip imm else s.advance 5) := by
  simp [exec, execJl, retire_applyJump, aluEngine, cmpLtU, Format.len]
theorem exec_jez (rd : Reg) (s : State) :
    exec (.jez rd) s = .next (if s.x rd = 0 then s.setX .ip (s.x .fl) else s.advance 1) := by
  simp [exec, execJez, retire_applyJump, aluEngine, cmpEq, Format.len]
theorem exec_invalid (b : Byte) (s : State) : exec (.invalid b) s = .next (s.raise .invalidOpcode) := rfl

theorem exec_ld_some {rd : Reg} {imm : Word} {s : State} {g : Region} {off : Nat}
    (h : translateAddr s.cfg imm = some (g, off)) :
    exec (.ld rd imm) s = .next ((s.setX rd ((s.array g).read32 off)).advance 5) := retire_applyLoad_some _ rd h
theorem exec_ld_none {rd : Reg} {imm : Word} {s : State} (h : translateAddr s.cfg imm = none) :
    exec (.ld rd imm) s = .next (s.raise .boundsViolation) := retire_applyLoad_none _ rd h
theorem exec_st_some {rd : Reg} {imm : Word} {s : State} {g : Region} {off : Nat}
    (h : translateAddr s.cfg imm = some (g, off)) :
    exec (.st rd imm) s = .next ((s.setArray g ((s.array g).write32 off (s.x rd))).advance 5) :=
  retire_applyStore_some _ _ h
theorem exec_st_none {rd : Reg} {imm : Word} {s : State} (h : translateAddr s.cfg imm = none) :
    exec (.st rd imm) s = .next (s.raise .boundsViolation) := retire_applyStore_none _ _ h
theorem exec_stf_some {rd : Reg} {s : State} {g : Region} {off : Nat}
    (h : translateAddr s.cfg (s.x .fl) = some (g, off)) :
    exec (.stf rd) s = .next ((s.setArray g ((s.array g).write32 off (s.x rd))).advance 1) :=
  retire_applyStore_some _ _ h
theorem exec_stf_none {rd : Reg} {s : State} (h : translateAddr s.cfg (s.x .fl) = none) :
    exec (.stf rd) s = .next (s.raise .boundsViolation) := retire_applyStore_none _ _ h

/-- No instruction is longer than five bytes. -/
theorem len_le_five (i : Instr) : i.len ≤ 5 := by
  unfold Instr.len
  split
  · next k _ => cases k <;> decide
  · decide

theorem format_len_pos (k : Kind) : 0 < k.format.len := by cases k <;> decide

theorem format_len_le_five (k : Kind) : k.format.len ≤ 5 := by cases k <;> decide

/-- Only the sentinel has length 0. -/
theorem len_pos {i : Instr} {k : Kind} (h : i.kind? = some k) : 0 < i.len := by
  simp only [Instr.len, h]
  exact format_len_pos k

/-- Everything an instruction can do, by what it changes: a result in its destination register, the pointer, a word of
one array, or the entry of a fault. -/
theorem exec_cases (i : Instr) (s : State) :
    (∃ rd v, destination i = some rd ∧ storeAddress s i = none ∧
      (∀ a, dataAddress s i = some a → translateAddr s.cfg a ≠ none) ∧
      exec i s = .next ((s.setX rd v).advance i.len)) ∨
    (∃ target, destination i = none ∧ dataAddress s i = none ∧ storeAddress s i = none ∧
      exec i s = .next (s.setX .ip target)) ∨
    (∃ a v g off, storeAddress s i = some a ∧ dataAddress s i = some a ∧ destination i = none ∧
      translateAddr s.cfg a = some (g, off) ∧
      exec i s = .next ((s.setArray g ((s.array g).write32 off v)).advance i.len)) ∨
    (∃ a, dataAddress s i = some a ∧ translateAddr s.cfg a = none ∧ exec i s = .next (s.raise .boundsViolation)) ∨
    (∃ b, i = .invalid b ∧ exec i s = .next (s.raise .invalidOpcode)) := by
  have none_case : ∀ a : Word, (none : Option Word) = some a → translateAddr s.cfg a ≠ none := fun _ h => nomatch h
  cases i with
  | movi rd imm => exact .inl ⟨rd, _, rfl, rfl, none_case, exec_movi rd imm s⟩
  | mov rd rs => exact .inl ⟨rd, _, rfl, rfl, none_case, exec_mov rd rs s⟩
  | addi rd imm => exact .inl ⟨rd, _, rfl, rfl, none_case, exec_addi rd imm s⟩
  | add rd rs => exact .inl ⟨rd, _, rfl, rfl, none_case, exec_add rd rs s⟩
  | subi rd imm => exact .inl ⟨rd, _, rfl, rfl, none_case, exec_subi rd imm s⟩
  | sub rd rs => exact .inl ⟨rd, _, rfl, rfl, none_case, exec_sub rd rs s⟩
  | andi rd imm => exact .inl ⟨rd, _, rfl, rfl, none_case, exec_andi rd imm s⟩
  | andr rd rs => exact .inl ⟨rd, _, rfl, rfl, none_case, exec_andr rd rs s⟩
  | ori rd imm => exact .inl ⟨rd, _, rfl, rfl, none_case, exec_ori rd imm s⟩
  | orr rd rs => exact .inl ⟨rd, _, rfl, rfl, none_case, exec_orr rd rs s⟩
  | notr rd => exact .inl ⟨rd, _, rfl, rfl, none_case, exec_notr rd s⟩
  | je rd imm =>
    refine .inr (.inl ?_)
    rw [exec_je]; split
    · exact ⟨imm, rfl, rfl, rfl, rfl⟩
    · exact ⟨_, rfl, rfl, rfl, rfl⟩
  | jl rd imm =>
    refine .inr (.inl ?_)
    rw [exec_jl]; split
    · exact ⟨imm, rfl, rfl, rfl, rfl⟩
    · exact ⟨_, rfl, rfl, rfl, rfl⟩
  | jez rd =>
    refine .inr (.inl ?_)
    rw [exec_jez]; split
    · exact ⟨_, rfl, rfl, rfl, rfl⟩
    · exact ⟨_, rfl, rfl, rfl, rfl⟩
  | ld rd imm =>
    cases h : translateAddr s.cfg imm with
    | none => exact .inr (.inr (.inr (.inl ⟨imm, rfl, h, exec_ld_none h⟩)))
    | some p =>
      refine .inl ⟨rd, _, rfl, rfl, fun a ha => ?_, exec_ld_some (g := p.1) (off := p.2) h⟩
      cases ha
      exact fun e => nomatch h.symm.trans e
  | st rd imm =>
    cases h : translateAddr s.cfg imm with
    | none => exact .inr (.inr (.inr (.inl ⟨imm, rfl, h, exec_st_none h⟩)))
    | some p => exact .inr (.inr (.inl ⟨imm, _, p.1, p.2, rfl, rfl, rfl, h, exec_st_some h⟩))
  | stf rd =>
    cases h : translateAddr s.cfg (s.x .fl) with
    | none => exact .inr (.inr (.inr (.inl ⟨s.x .fl, rfl, h, exec_stf_none h⟩)))
    | some p => exact .inr (.inr (.inl ⟨s.x .fl, _, p.1, p.2, rfl, rfl, rfl, h, exec_stf_some h⟩))
  | invalid b => exact .inr (.inr (.inr (.inr ⟨b, rfl, exec_invalid b s⟩)))

/-- An instruction keeps `run` and `cause`, or enters a fault. -/
theorem exec_status {i : Instr} {s t : State} (h : exec i s = .next t) :
    (t.run = s.run ∧ t.cause = s.cause) ∨ ∃ f, f ≠ .none ∧ t = s.raise f := by
  rcases exec_cases i s with ⟨_, _, _, _, _, e⟩ | ⟨_, _, _, _, e⟩ | ⟨_, _, _, _, _, _, _, _, e⟩ | ⟨_, _, _, e⟩ |
    ⟨_, _, e⟩ <;> rw [e] at h <;> cases h
  · left; simp
  · left; simp
  · left; simp
  · exact .inr ⟨_, by decide, rfl⟩
  · exact .inr ⟨_, by decide, rfl⟩

/-- No instruction changes the parameters. -/
theorem exec_keeps_cfg {i : Instr} {s t : State} (h : exec i s = .next t) : t.cfg = s.cfg := by
  rcases exec_cases i s with ⟨_, _, _, _, _, e⟩ | ⟨_, _, _, _, e⟩ | ⟨_, _, _, _, _, _, _, _, e⟩ | ⟨_, _, _, e⟩ |
    ⟨_, _, e⟩ <;> rw [e] at h <;> cases h <;> simp

end Sys2Proof.Machine
end

