-- ==== Sys2Proof/Laws/PerInstr.lean ====
section
/-! SUPPORT. Statements about every instruction as syntax, one lemma per constructor. -/

/-- A well-formed instruction is encoded in as many bytes as its length, and the sentinel in the one byte it stands for. -/
def Sys2Proof.Laws.EncodedLength.Statement (i : Sys2Proof.Instr) : Prop :=
  ∀ c : Sys2Proof.Config, i.wf c = true → (Sys2Proof.encode c i).length = max 1 i.len

namespace Sys2Proof.Laws.EncodedLength

theorem movi (rd : Reg) (imm : Word) : Statement (.movi rd imm) := fun _ h => assemble_length h rd _
theorem mov (rd rs : Reg) : Statement (.mov rd rs) := fun _ h => assemble_length h rd _
theorem je (rd : Reg) (imm : Word) : Statement (.je rd imm) := fun _ h => assemble_length h rd _
theorem jl (rd : Reg) (imm : Word) : Statement (.jl rd imm) := fun _ h => assemble_length h rd _
theorem addi (rd : Reg) (imm : Word) : Statement (.addi rd imm) := fun _ h => assemble_length h rd _
theorem add (rd rs : Reg) : Statement (.add rd rs) := fun _ h => assemble_length h rd _
theorem subi (rd : Reg) (imm : Word) : Statement (.subi rd imm) := fun _ h => assemble_length h rd _
theorem sub (rd rs : Reg) : Statement (.sub rd rs) := fun _ h => assemble_length h rd _
theorem andi (rd : Reg) (imm : Word) : Statement (.andi rd imm) := fun _ h => assemble_length h rd _
theorem andr (rd rs : Reg) : Statement (.andr rd rs) := fun _ h => assemble_length h rd _
theorem ori (rd : Reg) (imm : Word) : Statement (.ori rd imm) := fun _ h => assemble_length h rd _
theorem orr (rd rs : Reg) : Statement (.orr rd rs) := fun _ h => assemble_length h rd _
theorem notr (rd : Reg) : Statement (.notr rd) := fun _ h => assemble_length h rd _
theorem ld (rd : Reg) (imm : Word) : Statement (.ld rd imm) := fun _ h => assemble_length h rd _
theorem st (rd : Reg) (imm : Word) : Statement (.st rd imm) := fun _ h => assemble_length h rd _
theorem stf (rd : Reg) : Statement (.stf rd) := fun _ h => assemble_length h rd _
theorem jez (rd : Reg) : Statement (.jez rd) := fun _ h => assemble_length h rd _
theorem invalid (byte0 : Byte) : Statement (.invalid byte0) := fun _ _ => rfl

end Sys2Proof.Laws.EncodedLength
end

