-- ==== Sys2Proof/Laws/Step.lean ====
section
/-! SUPPORT. The bytes presented to the decoder, and everything a step can do, said once. -/

namespace Sys2Proof.Machine

/-! ### Fetch -/

@[simp] theorem fetchBytes_length (s : State) : (fetchBytes s).length = s.avail := by simp [fetchBytes]

theorem fetchBytes_getElem (s : State) {k : Nat} (h : k < (fetchBytes s).length) :
    (fetchBytes s)[k] = fetchByte s ((s.x .ip).toNat + k) := by simp [fetchBytes]

/-- Below the end of the program there is a byte 0. -/
theorem fetchBytes_cons {s : State} (h : (s.x .ip).toNat < s.cfg.progEnd) :
    ∃ rest, fetchBytes s = fetchByte s (s.x .ip).toNat :: rest := by
  have hlen : 0 < (fetchBytes s).length := by rw [fetchBytes_length, State.avail]; omega
  match hb : fetchBytes s with
  | [] => simp [hb] at hlen
  | b :: rest =>
    refine ⟨rest, ?_⟩
    have := fetchBytes_getElem s (k := 0) hlen
    simp only [hb, List.getElem_cons_zero, Nat.add_zero] at this
    rw [this]

/-- The first `n` of the bytes presented, where all `n` lie below the end of the program. -/
theorem fetchBytes_eq_append {s : State} {bytes : List Byte} (hn : bytes.length ≤ 5)
    (hend : (s.x .ip).toNat + bytes.length ≤ s.cfg.progEnd)
    (hb : ∀ (k : Nat) (h : k < bytes.length), fetchByte s ((s.x .ip).toNat + k) = bytes[k]) :
    ∃ rest, fetchBytes s = bytes ++ rest := by
  refine ⟨(fetchBytes s).drop bytes.length, ?_⟩
  have htake : (fetchBytes s).take bytes.length = bytes := by
    apply List.ext_getElem
    · simp only [List.length_take, fetchBytes_length, State.avail]; omega
    · intro k h1 h2
      rw [List.getElem_take, fetchBytes_getElem]
      exact hb k h2
  calc fetchBytes s = (fetchBytes s).take bytes.length ++ (fetchBytes s).drop bytes.length :=
        (List.take_append_drop ..).symm
    _ = _ := by rw [htake]

/-! ### The step, one lemma per outcome -/

theorem atEnd_iff (s : State) : s.atEnd = true ↔ s.cfg.progEnd ≤ (s.x .ip).toNat := by simp [State.atEnd]

theorem step_halted {s : State} (h : s.run = .halted) : step s = .next s := by simp only [step, h]

theorem step_registersNotDescribed {s : State} (h : s.run = .running) (hc : ¬ s.cfg.Described) :
    step s = .fault .registersNotDescribed := by
  simp only [step, h, if_pos hc]

theorem step_atEnd {s : State} (h : s.run = .running) (hc : s.cfg.Described) (he : s.cfg.progEnd ≤ (s.x .ip).toNat) :
    step s = .next s.haltNormally := by
  simp only [step, h, if_neg (not_not_intro hc), (atEnd_iff s).mpr he, if_true]

theorem step_decoded {s : State} {i : Instr} (h : s.run = .running) (he : (s.x .ip).toNat < s.cfg.progEnd)
    (hm : s.cfg.Runnable) (hd : decodeAt s = .ok i) : step s = exec i s := by
  have he' : ¬ s.atEnd = true := fun e => Nat.not_lt.mpr ((atEnd_iff s).mp e) he
  simp only [step, h, if_neg (not_not_intro hm.1), he', if_neg (Nat.not_lt.mpr hm.2), hd]
  rfl

theorem step_decodeError {s : State} {f : Cause} (h : s.run = .running) (he : (s.x .ip).toNat < s.cfg.progEnd)
    (hm : s.cfg.Runnable) (hd : decodeAt s = .error f) : step s = .next (s.raise f) := by
  have he' : ¬ s.atEnd = true := fun e => Nat.not_lt.mpr ((atEnd_iff s).mp e) he
  simp only [step, h, if_neg (not_not_intro hm.1), he', if_neg (Nat.not_lt.mpr hm.2), hd]
  rfl

theorem step_imageOutsideRam {s : State} (h : s.run = .running) (hc : s.cfg.Described) (he : (s.x .ip).toNat < s.cfg.progEnd)
    (hm : s.cfg.memSize < s.cfg.progEnd) : step s = .fault .imageOutsideRam := by
  have he' : ¬ s.atEnd = true := fun e => Nat.not_lt.mpr ((atEnd_iff s).mp e) he
  simp only [step, h, if_neg (not_not_intro hc), he', if_pos hm]
  rfl

/-- Everything a step can do. -/
theorem step_cases (s : State) :
    (s.run = .halted ∧ step s = .next s) ∨
    (s.run = .running ∧ ¬ s.cfg.Described ∧ step s = .fault .registersNotDescribed) ∨
    (s.run = .running ∧ s.cfg.Described ∧ s.cfg.progEnd ≤ (s.x .ip).toNat ∧ step s = .next s.haltNormally) ∨
    (s.run = .running ∧ s.cfg.Described ∧ (s.x .ip).toNat < s.cfg.progEnd ∧ s.cfg.memSize < s.cfg.progEnd ∧
      step s = .fault .imageOutsideRam) ∨
    (s.run = .running ∧ (s.x .ip).toNat < s.cfg.progEnd ∧ s.cfg.Runnable ∧
      decodeAt s = .error .truncatedOperand ∧ step s = .next (s.raise .truncatedOperand)) ∨
    (∃ i, s.run = .running ∧ (s.x .ip).toNat < s.cfg.progEnd ∧ s.cfg.Runnable ∧
      decodeAt s = .ok i ∧ step s = exec i s) := by
  cases hr : s.run with
  | halted => exact .inl ⟨rfl, step_halted hr⟩
  | running =>
    refine .inr ?_
    by_cases hc : s.cfg.Described
    · refine .inr ?_
      rcases Nat.lt_or_ge (s.x .ip).toNat s.cfg.progEnd with he | he
      · refine .inr ?_
        rcases Nat.lt_or_ge s.cfg.memSize s.cfg.progEnd with hm | hm
        · exact .inl ⟨rfl, hc, he, hm, step_imageOutsideRam hr hc he hm⟩
        · refine .inr ?_
          cases hd : decodeAt s with
          | error f =>
            obtain rfl : f = .truncatedOperand := decode_error hd
            exact .inl ⟨rfl, he, ⟨hc, hm⟩, rfl, step_decodeError hr he ⟨hc, hm⟩ hd⟩
          | ok i => exact .inr ⟨i, rfl, he, ⟨hc, hm⟩, rfl, step_decoded hr he ⟨hc, hm⟩ hd⟩
      · exact .inl ⟨rfl, hc, he, step_atEnd hr hc he⟩
    · exact .inl ⟨rfl, hc, step_registersNotDescribed hr hc⟩

/-- Everything a step that has a next state can have done. -/
theorem step_next_cases {s t : State} (h : step s = .next t) :
    (s.run = .halted ∧ t = s) ∨
    (s.run = .running ∧ s.cfg.Described ∧ s.cfg.progEnd ≤ (s.x .ip).toNat ∧ t = s.haltNormally) ∨
    (s.run = .running ∧ (s.x .ip).toNat < s.cfg.progEnd ∧ s.cfg.Runnable ∧
      decodeAt s = .error .truncatedOperand ∧ t = s.raise .truncatedOperand) ∨
    (∃ i, s.run = .running ∧ (s.x .ip).toNat < s.cfg.progEnd ∧ s.cfg.Runnable ∧
      decodeAt s = .ok i ∧ exec i s = .next t) := by
  rcases step_cases s with ⟨h1, e⟩ | ⟨_, _, e⟩ | ⟨h1, h2, h3, e⟩ | ⟨_, _, _, _, e⟩ | ⟨h1, h2, h3, h4, e⟩ |
    ⟨i, h1, h2, h3, h4, e⟩ <;> rw [e] at h
  · cases h; exact .inl ⟨h1, rfl⟩
  · cases h
  · cases h; exact .inr (.inl ⟨h1, h2, h3, rfl⟩)
  · cases h
  · cases h; exact .inr (.inr (.inl ⟨h1, h2, h3, h4, rfl⟩))
  · exact .inr (.inr (.inr ⟨i, h1, h2, h3, h4, h⟩))

/-- What a step does to `run` and `cause`: nothing when halted; the normal halt; no change; or the entry of a fault. -/
theorem step_status {s t : State} (h : step s = .next t) :
    (s.run = .halted ∧ t = s) ∨
    (s.run = .running ∧ s.cfg.progEnd ≤ (s.x .ip).toNat ∧ t = s.haltNormally) ∨
    (s.run = .running ∧ (s.x .ip).toNat < s.cfg.progEnd ∧
      ((t.run = .running ∧ t.cause = s.cause) ∨ ∃ f, f ≠ .none ∧ t = s.raise f)) := by
  rcases step_next_cases h with ⟨h1, e⟩ | ⟨h1, _, h2, e⟩ | ⟨h1, h2, _, _, e⟩ | ⟨i, h1, h2, _, _, e⟩
  · exact .inl ⟨h1, e⟩
  · exact .inr (.inl ⟨h1, h2, e⟩)
  · exact .inr (.inr ⟨h1, h2, .inr ⟨_, by decide, e⟩⟩)
  · exact .inr (.inr ⟨h1, h2, h1 ▸ exec_status e⟩)

/-- No step changes the parameters. -/
theorem step_keeps_cfg {s t : State} (h : step s = .next t) : t.cfg = s.cfg := by
  rcases step_next_cases h with ⟨_, rfl⟩ | ⟨_, _, _, rfl⟩ | ⟨_, _, _, _, rfl⟩ | ⟨_, _, _, _, _, e⟩
  · rfl
  · rfl
  · rfl
  · exact exec_keeps_cfg e

/-! ### Runs -/

theorem runsTo_zero (s t : State) : RunsTo 0 s t ↔ s = t := Iff.rfl

/-- A run of `k + 1` steps is a step and a run of `k` steps. -/
theorem runsTo_succ (k : Nat) (s t : State) : RunsTo (k + 1) s t ↔ ∃ u, step s = .next u ∧ RunsTo k u t := Iff.rfl

/-- A property that every step keeps holds at the end of every run. -/
theorem runsTo_induction {P : State → Prop} (hstep : ∀ s t, P s → step s = .next t → P t) {k : Nat} {s t : State}
    (h : RunsTo k s t) (hs : P s) : P t := by
  induction k generalizing s with
  | zero => exact (runsTo_zero s t).mp h ▸ hs
  | succ k ih =>
    obtain ⟨u, hu, hk⟩ := (runsTo_succ k s t).mp h
    exact ih hk (hstep s u hs hu)

/-- A run from a halted state goes nowhere. -/
theorem runsTo_halted {k : Nat} {s t : State} (hs : s.run = .halted) (h : RunsTo k s t) : t = s := by
  induction k with
  | zero => exact h.symm
  | succ k ih =>
    obtain ⟨u, hu, hk⟩ := (runsTo_succ k s t).mp h
    rw [step_halted hs] at hu
    cases hu
    exact ih hk

end Sys2Proof.Machine
end

