-- ==== Sys2Proof/Tests/Slice0.lean ====
section
/-! SUPPORT. The model's own tests. Expected results are those of `95_test_vectors.md` (its vector's name is in each test's
name) or are written out from the encoding rules; and, for every statement with hypotheses, a state and operands that meet
them. -/

namespace Sys2Proof.Tests

open Sys2Proof.Machine

/-! ### Helpers -/

/-- The reset state of the vectors: the default parameters, a profile and an image. -/
def at5 (image : List Byte) : State := State.boot (Config.standard .p5 image)
def at4 (image : List Byte) : State := State.boot (Config.standard .p4 image)

/-- A property of the state after one step. -/
def after (s : State) (f : State → Bool) : Bool :=
  match step s with
  | .next t => f t
  | .fault _ => false
  | .refused _ => false

/-- The state after one step is RUNNING with cause NONE and `ip` as given. -/
def goesOn (t : State) (ip : Word) : Bool := decide (t.run = .running) && decide (t.cause = .none) && decide (t.x .ip = ip)

/-- The state after one step is HALTED with the cause and `ip` as given. -/
def haltsWith (t : State) (c : Cause) (ip : Word) : Bool :=
  decide (t.run = .halted) && decide (t.cause = c) && decide (t.x .ip = ip)

/-! ### WellFormed: each check refuses an ill-formed term -/

/-- JE, JL and ST are not in P4 (R87). -/
theorem test_wf_je_not_in_p4 : (Instr.je .r0 0).wf (Config.standard .p4 []) = false := by decide
theorem test_wf_jl_not_in_p4 : (Instr.jl .r0 0).wf (Config.standard .p4 []) = false := by decide
theorem test_wf_st_not_in_p4 : (Instr.st .r0 0).wf (Config.standard .p4 []) = false := by decide
/-- The sentinel stands for no byte that selects a kind (R88): 0x80 is JEZ in P5, 0xD0 is STF in P4. -/
theorem test_wf_sentinel_of_assigned_byte : (Instr.invalid 0x80).wf (Config.standard .p5 []) = false ∧
    (Instr.invalid 0xD0).wf (Config.standard .p4 []) = false := by decide
/-- Under an empty opcode map no kind is well formed, and every byte's sentinel is. -/
theorem test_wf_empty_map :
    [Instr.movi .r0 0, .mov .r0 .r0, .je .r0 0, .jl .r0 0, .addi .r0 0, .add .r0 .r0, .subi .r0 0, .sub .r0 .r0,
      .andi .r0 0, .andr .r0 .r0, .ori .r0 0, .orr .r0 .r0, .notr .r0, .ld .r0 0, .st .r0 0, .stf .r0, .jez .r0].all
      (fun i => !i.wf { Config.standard .p5 [] with opmapP5 := [] }) = true ∧
    (Instr.invalid 0).wf { Config.standard .p5 [] with opmapP5 := [] } = true := by decide
/-- Parameters that break R6: an image that does not fit, a RAM over 2^32 bytes, a device past the top, a short map; and registers of
another width or number (R20). -/
theorem test_config_invalid :
    (Config.standard .p5 []).valid = true ∧
    { Config.standard .p5 [1] with memSize := 262140 }.valid = false ∧
    { Config.standard .p5 [] with memSize := 2 ^ 32 + 1 }.valid = false ∧
    { Config.standard .p5 [] with devSize := 0x10001 }.valid = false ∧
    { Config.standard .p5 [] with opmapP5 := [] }.valid = false ∧
    { Config.standard .p5 [] with opmapP4 := [] }.valid = false ∧
    { Config.standard .p5 [] with xlen := 16 }.valid = false ∧
    { Config.standard .p5 [] with nreg := 8 }.valid = false := by decide

/-! ### Decoding: the words of table 2.1 of the vectors, each constructor in each profile -/

/-- Decode and encode agree with a row of the table. -/
def row (p : Profile) (bytes : List Byte) (i : Instr) : Bool :=
  decide (decode (Config.standard p []) bytes = .ok i) && decide (encode (Config.standard p []) i = bytes)

theorem test_decode_p5_move_jump : row .p5 [0x01, 1, 2, 3, 4] (.movi .r1 0x04030201) &&
    row .p5 [0x09, 2] (.mov .r1 .r2) && row .p5 [0x11, 1, 2, 3, 4] (.je .r1 0x04030201) &&
    row .p5 [0x19, 1, 2, 3, 4] (.jl .r1 0x04030201) && row .p5 [0x81] (.jez .r1) = true := by decide
theorem test_decode_p5_alu : row .p5 [0x21, 1, 2, 3, 4] (.addi .r1 0x04030201) && row .p5 [0x29, 2] (.add .r1 .r2) &&
    row .p5 [0x31, 1, 2, 3, 4] (.subi .r1 0x04030201) && row .p5 [0x39, 2] (.sub .r1 .r2) &&
    row .p5 [0x41, 1, 2, 3, 4] (.andi .r1 0x04030201) && row .p5 [0x49, 2] (.andr .r1 .r2) &&
    row .p5 [0x51, 1, 2, 3, 4] (.ori .r1 0x04030201) && row .p5 [0x59, 2] (.orr .r1 .r2) &&
    row .p5 [0x61] (.notr .r1) = true := by decide
theorem test_decode_p5_memory : row .p5 [0x69, 1, 2, 3, 4] (.ld .r1 0x04030201) &&
    row .p5 [0x71, 1, 2, 3, 4] (.st .r1 0x04030201) && row .p5 [0x79] (.stf .r1) = true := by decide
theorem test_decode_p4 : row .p4 [0x01, 1, 2, 3, 4] (.movi .r1 0x04030201) && row .p4 [0x11, 2] (.mov .r1 .r2) &&
    row .p4 [0x21] (.jez .r1) && row .p4 [0x31, 1, 2, 3, 4] (.addi .r1 0x04030201) && row .p4 [0x41, 2] (.add .r1 .r2) &&
    row .p4 [0x51, 1, 2, 3, 4] (.subi .r1 0x04030201) && row .p4 [0x61, 2] (.sub .r1 .r2) &&
    row .p4 [0x71, 1, 2, 3, 4] (.andi .r1 0x04030201) && row .p4 [0x81, 2] (.andr .r1 .r2) &&
    row .p4 [0x91, 1, 2, 3, 4] (.ori .r1 0x04030201) && row .p4 [0xA1, 2] (.orr .r1 .r2) && row .p4 [0xB1] (.notr .r1) &&
    row .p4 [0xC1, 1, 2, 3, 4] (.ld .r1 0x04030201) && row .p4 [0xD1] (.stf .r1) = true := by decide
/-- The ranges without an entry: 0x88 to 0xFF in P5, 0xE0 to 0xFF in P4 (R88). -/
theorem test_decode_invalid : row .p5 [0x88] (.invalid 0x88) && row .p5 [0xFF] (.invalid 0xFF) &&
    row .p4 [0xE0] (.invalid 0xE0) && row .p4 [0xFF] (.invalid 0xFF) = true := by decide
/-- The decoder's outputs on a truncated RR instruction and on no bytes (R89, R90). -/
theorem test_decoderOut_truncated :
    decoderOut (Config.standard .p5 []) [0x0B] = ⟨none, .r3, .r0, 0, 0, .truncatedOperand⟩ ∧
    decoderOut (Config.standard .p5 []) [] = ⟨none, .r0, .r0, 0, 0, .truncatedOperand⟩ := by decide
/-- Table words: 8 bits read in P5; 16 bits of 0x10 only fit P4, where it is MOV. -/
theorem test_tableWord : decodeTableWord 8 0x10 = some (.je .r0 0) ∧ decodeTableWord 16 0x10 = some (.mov .r0 .r0) ∧
    decodeTableWord 8 0x88 = some (.invalid 0x88) ∧ decodeTableWord 40 0x0403020101 = some (.movi .r1 0x04030201) := by
  decide

/-! ### One step, by the vectors -/

theorem test_V1_field_7 : after (at5 [0x07, 0xAA, 0, 0, 0]) (fun t => t.x .r0 = 0xAA && goesOn t 0x00040001) = true := by decide
theorem test_V2b_p4_field_14 : after (at4 [0x0E, 0xAA, 0, 0, 0]) (fun t => t.x .r0 = 0xAA && goesOn t 0x00040001) = true := by
  decide
theorem test_V4_high_nibble : after ((at5 [0x09, 0xF3]).setX .r3 0x33) (fun t => t.x .r1 = 0x33 && goesOn t 0x0003FFFE) = true := by
  decide
theorem test_V5_invalid : after (at5 [0x88]) (fun t => haltsWith t .invalidOpcode 0x0003FFFC) = true := by decide
theorem test_V7_invalid_p4 : after (at4 [0xE0]) (fun t => haltsWith t .invalidOpcode 0x0003FFFC) = true := by decide
theorem test_V8_truncated : after (at5 [0, 1, 2, 3]) (fun t => t.x .r0 = 0 && haltsWith t .truncatedOperand 0x0003FFFC) = true := by
  decide
theorem test_V9_truncated : after (at5 [0x08]) (fun t => haltsWith t .truncatedOperand 0x0003FFFC) = true := by decide
theorem test_S6_movi : after (at5 [0, 5, 0, 0, 0]) (fun t => t.x .r0 = 5 && goesOn t 0x00040001) = true := by decide
theorem test_M7_movi_ip_wraps : after (at5 [0x06, 0xFE, 0xFF, 0xFF, 0xFF]) (fun t => goesOn t 3) = true := by decide
theorem test_M1_mov_from_ip : after (at5 [0x08, 0x06]) (fun t => t.x .r0 = 0x0003FFFC && goesOn t 0x0003FFFE) = true := by decide
theorem test_M6_mov_to_ip : after (at5 [0x0E, 0x0E]) (fun t => goesOn t 2) = true := by decide
theorem test_J1_je_fl : after ((at5 [0x15, 0x78, 0x56, 0x34, 0x12]).setX .fl 99) (fun t => goesOn t 0x12345678) = true := by decide
theorem test_J3_je_not_taken : after (((at5 [0x11, 0x10, 0, 4, 0]).setX .r1 7).setX .fl 8) (fun t => goesOn t 0x00040001) = true := by
  decide
theorem test_J5_jl_unsigned : after (((at5 [0x19, 0x44, 0x33, 0x22, 0x11]).setX .r1 0x80000000).setX .fl 0x7FFFFFFF)
    (fun t => goesOn t 0x00040001) = true := by decide
theorem test_J6d_jl_ip : after ((at5 [0x1E, 0x44, 0x33, 0x22, 0x11]).setX .fl 0x00040000) (fun t => goesOn t 0x11223344) = true := by
  decide
theorem test_J9_jez_fl : after (at5 [0x85]) (fun t => goesOn t 0) = true := by decide
theorem test_J8_jez_not_taken : after (((at5 [0x82]).setX .r2 1).setX .fl 0x00040010) (fun t => goesOn t 0x0003FFFD) = true := by
  decide
theorem test_A1_addi_wraps : after ((at5 [0x20, 1, 0, 0, 0]).setX .r0 0xFFFFFFFF) (fun t => t.x .r0 = 0 && goesOn t 0x00040001) = true := by
  decide
theorem test_A14_addi_ip : after (at5 [0x26, 0xFB, 0xFF, 0xFF, 0xFF]) (fun t => goesOn t 0x0003FFFC) = true := by decide
theorem test_A2_add_self : after ((at5 [0x28, 0]).setX .r0 0x80000001) (fun t => t.x .r0 = 2 && goesOn t 0x0003FFFE) = true := by
  decide
theorem test_A12_add_ip : after ((at5 [0x29, 0x06]).setX .r1 4) (fun t => t.x .r1 = 0x00040000 && goesOn t 0x0003FFFE) = true := by
  decide
theorem test_A3_subi_wraps : after (at5 [0x30, 1, 0, 0, 0]) (fun t => t.x .r0 = 0xFFFFFFFF && goesOn t 0x00040001) = true := by decide
theorem test_A4_sub : after (((at5 [0x3A, 0x03]).setX .r2 3).setX .r3 5) (fun t => t.x .r2 = 0xFFFFFFFE && goesOn t 0x0003FFFE) = true := by
  decide
theorem test_A6_andi : after ((at5 [0x40, 0xFF, 0, 0, 0]).setX .r0 0x12345678) (fun t => t.x .r0 = 0x78 && goesOn t 0x00040001) = true := by
  decide
theorem test_A7_and : after (((at5 [0x48, 1]).setX .r0 0xF0F0F0F0).setX .r1 0xFF00FF00)
    (fun t => t.x .r0 = 0xF000F000 && goesOn t 0x0003FFFE) = true := by decide
theorem test_A8_ori : after ((at5 [0x50, 0x0F, 0, 0, 0]).setX .r0 0x12345670)
    (fun t => t.x .r0 = 0x1234567F && goesOn t 0x00040001) = true := by decide
theorem test_A9_or : after (((at5 [0x58, 1]).setX .r0 0xF0F0F0F0).setX .r1 0xFF00FF00)
    (fun t => t.x .r0 = 0xFFF0FFF0 && goesOn t 0x0003FFFE) = true := by decide
theorem test_A10_not : after (at5 [0x60]) (fun t => t.x .r0 = 0xFFFFFFFF && goesOn t 0x0003FFFD) = true := by decide
theorem test_A13_not_ip : after (at5 [0x66]) (fun t => goesOn t 0xFFFC0004) = true := by decide
theorem test_L6_ld_last : after (at5 [0x69, 0xFD, 0xFF, 3, 0]) (fun t => t.x .r1 = 0x0003FFFD && goesOn t 0x00040001) = true := by
  decide
theorem test_L7_ld_bounds : after (at5 [0x69, 0xFE, 0xFF, 3, 0]) (fun t => t.x .r1 = 0 && haltsWith t .boundsViolation 0x0003FFFC) = true := by
  decide
theorem test_L2_st_device_last : after ((at5 [0x70, 0xFC, 0x29, 0xFF, 0xFF]).setX .r0 0xAABBCCDD)
    (fun t => t.dev = [(0x29FC, 0xDD), (0x29FD, 0xCC), (0x29FE, 0xBB), (0x29FF, 0xAA)] && goesOn t 0x00040001) = true := by decide
theorem test_L8_st_unaligned : after ((at5 [0x73, 3, 0, 0, 0]).setX .r3 0x04030201)
    (fun t => t.ram.read 2 = 0 && t.ram.read 3 = 1 && t.ram.read 4 = 2 && t.ram.read 5 = 3 && t.ram.read 6 = 4 &&
      t.ram.read 7 = 0 && goesOn t 0x00040001) = true := by decide
theorem test_L3_st_device_bounds : after ((at5 [0x70, 0xFD, 0x29, 0xFF, 0xFF]).setX .r0 0xAABBCCDD)
    (fun t => t.dev = [] && haltsWith t .boundsViolation 0x0003FFFC) = true := by decide
theorem test_L10_stf_fl : after ((at5 [0x7D]).setX .fl 0x10)
    (fun t => t.ram.read32 0x10 = 0x10 && goesOn t 0x0003FFFD) = true := by decide
theorem test_L20_stf_p4 : after (((at4 [0xD1]).setX .r1 0x99).setX .fl 0x300)
    (fun t => t.ram.read32 0x300 = 0x99 && goesOn t 0x0003FFFD) = true := by decide
/-- S5b: with a RAM that reaches, the store at 0xFFFEFFFF lands in RAM. -/
theorem test_S5b_routing : after ((State.boot { Config.standard .p5 [0x70, 0xFF, 0xFF, 0xFE, 0xFF] with memSize := 0xFFFF0003 }).setX .r0
    0xAABBCCDD) (fun t => t.ram.read32 0xFFFEFFFF = 0xAABBCCDD && t.dev = [] && goesOn t 0x00040001) = true := by decide
/-- L12: without the device, the same address is past RAM. -/
theorem test_L12_no_device : after (State.boot { Config.standard .p5 [0x70, 0, 0, 0xFF, 0xFF] with mmioEn := false })
    (fun t => haltsWith t .boundsViolation 0x0003FFFC) = true := by decide
theorem test_H1_empty_image : after State.reset (fun t => haltsWith t .none 0x0003FFFC) = true := by decide
/-- H5: a pointer past `PROG_END`, not only at it, halts normally. -/
theorem test_H5_past_end : after ((at5 [0, 0, 0, 0, 0, 0, 0, 0, 0, 0]).setX .ip 0x00040008)
    (fun t => haltsWith t .none 0x00040008) = true := by decide
/-- H3: a second step after a fault changes nothing. -/
theorem test_H3_halted : after ((at5 [0x88]).raise .invalidOpcode) (fun t => decide (t = (at5 [0x88]).raise .invalidOpcode)) = true := by
  decide
/-- R6 broken, and registers no rule describes: the model's two stops. -/
theorem test_image_outside_ram : (match step (State.boot { Config.standard .p5 [0x60] with memSize := 0 }) with
    | .fault .imageOutsideRam => true | _ => false) = true := by decide
theorem test_registers_not_described : (match step (State.boot { Config.standard .p5 [0x60] with xlen := 64 }) with
    | .fault .registersNotDescribed => true | _ => false) = true := by decide

/-- P4: the end of the sum program's loop, run until halted from the reset state (three instructions). -/
theorem test_run_until_halted : (match runUntilHalted 4 (at5 [0x60, 0x62, 0x09, 0x02]) with
    | .next t => t.x .r0 = 0xFFFFFFFF && t.x .r1 = 0xFFFFFFFF && haltsWith t .none 0x00040000
    | .fault _ => false | .refused _ => false) = true := by decide

/-- What the host sees: run, cause, registers, the device buffer. -/
theorem test_observe : (at5 [0x60]).observe = ⟨.running, .none, ⟨0, 0, 0, 0, 0, 0, 0x0003FFFC⟩, []⟩ := by decide

/-- The observer's cells of program P2's end state: glyph 0x48, colour 0x1F: foreground 1, background 15. -/
theorem test_P2_cells : ((at5 []).setArray .dev (Memory.write32 [] 0 0x1F691F48)).glyph 0 = 0x48 ∧
    ((at5 []).setArray .dev (Memory.write32 [] 0 0x1F691F48)).colour 0 = 0x1F ∧
    ((at5 []).setArray .dev (Memory.write32 [] 0 0x1F691F48)).glyph 1 = 0x69 ∧ foreground 0x1F = 1 ∧ background 0x1F = 15 := by
  decide

/-! ### Witnesses: every statement's hypotheses are met together -/

theorem witness_ByteZeroFields : (31 < 32 ∧ 7 < 8) ∧ (15 < 16 ∧ 0 < 16) := by decide
theorem witness_RegisterMap : (7 ≤ 7) ∧ (Config.standard .p5 []).kindOf 0x0F = some .mov ∧ Kind.mov.format = .RR := by decide
theorem witness_SecondRegisterField : (Config.standard .p5 []).kindOf 0x08 = some .mov ∧ Kind.mov.format = .RR ∧
    (0x0E : Byte).toNat % 16 = (0xFE : Byte).toNat % 16 ∧ (Instr.mov .r1 .ip).kind? = some .mov ∧
    encode (Config.standard .p5 []) (.mov .r1 .ip) = [0x09, 0x06] := by decide
theorem witness_ImmediateAssembly : (Config.standard .p4 []).kindOf 0xCF = some .ld ∧ Kind.ld.format = .RI := by decide
theorem witness_OpcodeTables : 0x88 ≤ (0x88 : Byte).toNat ∧ 0xE0 ≤ (0xE0 : Byte).toNat := by decide
/-- Each clause of DecodeOfState at its boundary: at the limit; an unassigned last byte; one byte too few; just enough. -/
theorem witness_DecodeOfState :
    ((at5 []).cfg.progEnd ≤ ((at5 []).x .ip).toNat) ∧
    (((at5 [0x88]).x .ip).toNat < (at5 [0x88]).cfg.progEnd ∧ (at5 [0x88]).cfg.kindOf (fetchByte (at5 [0x88]) 262140) = none) ∧
    ((at5 [0x08]).cfg.kindOf (fetchByte (at5 [0x08]) 262140) = some .mov ∧ (at5 [0x08]).cfg.progEnd < 262140 + Kind.mov.format.len) ∧
    ((at5 [0x08, 1]).cfg.kindOf (fetchByte (at5 [0x08, 1]) 262140) = some .mov ∧
      262140 + Kind.mov.format.len ≤ (at5 [0x08, 1]).cfg.progEnd) := by decide
theorem witness_LengthFromByteZero : decode (Config.standard .p5 []) [0x08, 1] = .ok (.mov .r0 .r1) ∧
    decode (Config.standard .p5 []) [0x08, 2, 3] = .ok (.mov .r0 .r2) := by decide
theorem witness_DecodeConsumesItsLength : decode (Config.standard .p5 []) [0x00, 5, 0, 0, 0] = .ok (.movi .r0 5) ∧
    (Instr.movi .r0 5).kind? ≠ none := by decide
theorem witness_DecodeEncodeRoundTrip : (Instr.jl .ip 0xFFFFFFFF).wf (Config.standard .p5 []) = true ∧
    (Instr.invalid 0xE0).wf (Config.standard .p4 []) = true := by decide
theorem witness_TableWordRuns : decodeTableWord 8 0x70 = some (.st .r0 0) := by decide
theorem witness_EncodesForms : 7 < Profile.p5.regSpace ∧ 15 < Profile.p4.regSpace ∧ 15 < 16 := by decide
/-- JE equal and not equal; JL less and not less; JEZ zero and not zero. -/
theorem witness_Jumps : ((at5 []).x .r0 = (at5 []).x .fl) ∧ ((at5 []).x .ip ≠ (at5 []).x .fl) ∧
    (((at5 []).setX .fl 1).x .r0).toNat < (((at5 []).setX .fl 1).x .fl).toNat ∧
    ((at5 []).x .fl).toNat ≤ ((at5 []).x .r0).toNat ∧ (at5 []).x .r0 = 0 ∧ (at5 []).x .ip ≠ 0 := by decide
/-- LD, ST and STF in RAM, in the device buffer, and out of bounds, at the boundary values of each. -/
theorem witness_LoadStore :
    translateAddr (at5 [0, 0, 0, 0, 0]).cfg (absoluteAddress 0x0003FFFD) = some (.ram, 0x0003FFFD) ∧
    translateAddr (at5 [0, 0, 0, 0, 0]).cfg (absoluteAddress 0x0003FFFE) = none ∧
    translateAddr (at5 []).cfg (absoluteAddress 0xFFFF29FC) = some (.dev, 0x29FC) ∧
    translateAddr (at5 []).cfg (absoluteAddress 0xFFFF29FD) = none ∧
    translateAddr (at5 []).cfg (flagAddress (at5 [])) = some (.ram, 0) ∧
    translateAddr (at5 []).cfg (flagAddress ((at5 []).setX .fl 0x7FFFFFFF)) = none := by decide
/-- The arms of `Translate`, each at a boundary: device in and out, RAM in and out, with and without the device. -/
theorem witness_TranslateRule : (Config.standard .p5 []).mmioEn = true ∧
    (Config.standard .p5 []).devBase ≤ (0xFFFF0000 : Word).toNat ∧
    (0xFFFF29FC : Word).toNat - (Config.standard .p5 []).devBase + 4 ≤ (Config.standard .p5 []).devSize ∧
    (Config.standard .p5 []).devSize < (0xFFFF29FD : Word).toNat - (Config.standard .p5 []).devBase + 4 ∧
    (0xFFFEFFFF : Word).toNat < (Config.standard .p5 []).devBase ∧
    (262136 : Word).toNat + 4 ≤ (Config.standard .p5 []).memSize ∧
    (Config.standard .p5 []).memSize < (262137 : Word).toNat + 4 ∧
    { Config.standard .p5 [] with mmioEn := false }.mmioEn = false := by decide
theorem witness_RamBounds : { Config.standard .p5 [] with mmioEn := false, memSize := 2 ^ 32 }.memSize = 2 ^ 32 ∧
    { Config.standard .p5 [] with mmioEn := false, memSize := 2 ^ 32 }.mmioEn = false ∧
    (0xFFFEFFFF : Word).toNat < 0xFFFF0000 := by decide
theorem witness_DeviceBounds : (Config.standard .p5 []).mmioEn = true ∧
    (Config.standard .p5 []).devBase ≤ (0xFFFF0000 : Word).toNat ∧ 0xFFFF0000 ≤ (0xFFFFFFFF : Word).toNat := by decide
theorem witness_MemRules : translateAddr (at5 []).cfg 0 = some (.ram, 0) ∧ translateAddr (at5 []).cfg 0xFFFFFFFF = none := by decide
theorem witness_StoreThenLoad : translateAddr (at5 []).cfg 0xFFFF0000 ≠ none := by decide

/-- A state about to store the code NOT `r2` (byte 0x62) where it continues. -/
def beforeStore : State := (at5 [0x70, 1, 0, 4, 0, 0, 0, 0, 0]).setX .r0 0x62

theorem witness_StoredCodeRuns : beforeStore.run = .running ∧ (Instr.notr .r2).wf beforeStore.cfg = true ∧
    1 = (encode beforeStore.cfg (.notr .r2)).length ∧ 1 ≤ 2 ∧ (0x00040001 : Word) = beforeStore.x .ip + 5 ∧
    translateAddr beforeStore.cfg 0x00040001 = some (.ram, (0x00040001 : Word).toNat) ∧
    (0x00040001 : Word).toNat + 1 ≤ beforeStore.cfg.progEnd ∧ beforeStore.cfg.Runnable ∧
    (∀ (k : Nat) (h : k < (encode beforeStore.cfg (.notr .r2)).length),
      byteOf k (beforeStore.x .r0) = (encode beforeStore.cfg (.notr .r2))[k]) := by
  refine ⟨by decide, by decide, by decide, by decide, by decide, by decide, by decide, by decide, ?_⟩
  show ∀ (k : Nat) (h : k < [(0x62 : Byte)].length), byteOf k 0x62 = [(0x62 : Byte)][k]
  decide
theorem witness_DeviceCells : (at5 []).cfg.mmioEn = true ∧ (0xFFFF29FC : Word).toNat = (at5 []).cfg.devBase + 2 * 0x14FE ∧
    2 * 0x14FE + 4 ≤ (at5 []).cfg.devSize ∧ (0 ≠ 0x14FE ∧ 0 ≠ 0x14FE + 1) := by decide
theorem witness_StepRunsDecoded : (at5 [0x62]).run = .running ∧ ((at5 [0x62]).x .ip).toNat < (at5 [0x62]).cfg.progEnd ∧
    (at5 [0x62]).cfg.Runnable ∧ decodeAt (at5 [0x62]) = .ok (.notr .r2) := by decide
theorem witness_StepRunsEncoded : (at5 [0x62]).run = .running ∧ (Instr.notr .r2).wf (at5 [0x62]).cfg = true ∧
    (at5 [0x62]).cfg.Runnable ∧
    ((at5 [0x62]).x .ip).toNat + (encode (at5 [0x62]).cfg (.notr .r2)).length ≤ (at5 [0x62]).cfg.progEnd ∧
    (∀ (k : Nat) (h : k < (encode (at5 [0x62]).cfg (.notr .r2)).length),
      (at5 [0x62]).ram.read (((at5 [0x62]).x .ip).toNat + k) = (encode (at5 [0x62]).cfg (.notr .r2))[k]) := by
  refine ⟨by decide, by decide, by decide, by decide, ?_⟩
  show ∀ (k : Nat) (h : k < [(0x62 : Byte)].length), (at5 [0x62]).ram.read (262140 + k) = [(0x62 : Byte)][k]
  decide
theorem witness_EndOfProgramHalts : State.reset.run = .running ∧ State.reset.cfg.Described ∧ State.reset.cfg.progEnd ≤ (State.reset.x .ip).toNat := by decide
theorem witness_InvalidOpcodeHalts : (at5 [0x88]).run = .running ∧ ((at5 [0x88]).x .ip).toNat < (at5 [0x88]).cfg.progEnd ∧
    (at5 [0x88]).cfg.Runnable ∧
    (at5 [0x88]).cfg.kindOf (fetchByte (at5 [0x88]) ((at5 [0x88]).x .ip).toNat) = none := by decide
/-- Both clauses of TruncatedOperandHalts: an RR kind in the last byte, an RI kind four bytes from the end. -/
theorem witness_TruncatedOperandHalts :
    ((at5 [0x08]).run = .running ∧ ((at5 [0x08]).x .ip).toNat < (at5 [0x08]).cfg.progEnd ∧
      (at5 [0x08]).cfg.Runnable ∧
      (at5 [0x08]).cfg.kindOf (fetchByte (at5 [0x08]) ((at5 [0x08]).x .ip).toNat) = some .mov ∧
      (at5 [0x08]).cfg.progEnd < ((at5 [0x08]).x .ip).toNat + Kind.mov.format.len ∧
      decodeAt (at5 [0x08]) = .error .truncatedOperand) ∧
    decodeAt (at5 [0x00, 1, 2, 3]) = .error .truncatedOperand := by decide
/-- A state whose LD at `pc` is out of bounds, and one whose LD is not. -/
theorem witness_BoundsViolationExactly : (at5 [0x68, 0xFF, 0xFF, 0xFF, 0xFF]).run = .running ∧
    (at5 [0x68, 0xFF, 0xFF, 0xFF, 0xFF]).cause = .none ∧
    exec (.ld .r0 0xFFFFFFFF) (at5 []) = .next ((at5 []).raise .boundsViolation) ∧
    ((at5 []).raise .boundsViolation).cause = .boundsViolation ∧
    step (at5 [0x68, 0xFF, 0xFF, 0xFF, 0xFF]) = .next ((at5 [0x68, 0xFF, 0xFF, 0xFF, 0xFF]).raise .boundsViolation) :=
  ⟨rfl, rfl, rfl, rfl, rfl⟩
theorem witness_RunField : State.reset.run = .running ∧ step State.reset = .next State.reset.haltNormally ∧
    State.reset.haltNormally.run = .halted ∧ exec (.notr .r2) State.reset = .next ((State.reset.setX .r2 0xFFFFFFFF).advance 1) :=
  ⟨rfl, rfl, rfl, rfl⟩
theorem witness_CauseField : ((at5 [0x88]).run = .running → (at5 [0x88]).cause = .none) ∧
    step (at5 [0x88]) = .next ((at5 [0x88]).raise .invalidOpcode) ∧
    ((at5 [0x88]).raise .invalidOpcode).cause ≠ (at5 [0x88]).cause ∧
    step ((at5 [0x88]).raise .invalidOpcode) = .next ((at5 [0x88]).raise .invalidOpcode) :=
  ⟨fun _ => rfl, rfl, by decide, rfl⟩
theorem witness_FaultEntryIsPrecise : step (at5 [0x88]) = .next ((at5 [0x88]).raise .invalidOpcode) ∧
    ((at5 [0x88]).raise .invalidOpcode).cause ≠ (at5 [0x88]).cause := ⟨rfl, by decide⟩
theorem witness_OnlyNamedRegistersChange : exec (.notr .r2) (at5 []) = .next (((at5 []).setX .r2 0xFFFFFFFF).advance 1) ∧
    Reg.r2 ≠ .ip ∧ (((at5 []).setX .r2 0xFFFFFFFF).advance 1).x .r2 ≠ (at5 []).x .r2 := ⟨rfl, by decide, by decide⟩
theorem witness_MemoryChangesOnlyByStores :
    exec (.stf .ip) (at5 []) = .next (((at5 []).setArray .ram (Memory.write32 [] 0 0x0003FFFC)).advance 1) ∧
    ((((at5 []).setArray .ram (Memory.write32 [] 0 0x0003FFFC)).advance 1).array .ram).read 0 ≠ ((at5 []).array .ram).read 0 :=
  ⟨rfl, by decide⟩
theorem witness_ParametersNeverChange : RunsTo 1 State.reset State.reset.haltNormally := ⟨_, rfl, rfl⟩
theorem witness_MeaningIndependentOfProfile :
    exec (.movi .r0 5) (at5 []) = .next (((at5 []).setX .r0 5).advance 5) := rfl
theorem witness_DeviceContentsReachOnlyLoads :
    (∀ rd imm off, decodeAt (at5 [0x60]) = .ok (.ld rd imm) → translateAddr (at5 [0x60]).cfg imm ≠ some (.dev, off)) ∧
    step (at5 [0x60]) = .next (((at5 [0x60]).setX .r0 0xFFFFFFFF).advance 1) :=
  ⟨fun rd imm _ h => absurd (show Except.ok (Instr.notr .r0) = Except.ok (.ld rd imm) from h) (by simp), rfl⟩
theorem witness_EveryStepCompletes : State.reset.cfg.Runnable := by decide
theorem witness_ForwardProgress : (at5 [0x10, 0xFC, 0xFF, 0x03, 0x00]).run = .running ∧
    step (at5 [0x10, 0xFC, 0xFF, 0x03, 0x00]) = .next (at5 [0x10, 0xFC, 0xFF, 0x03, 0x00]) := ⟨rfl, rfl⟩
theorem witness_ResetState : (Config.standard .p5 [7]).rBytes < 2 ^ 32 ∧ 0 < (Config.standard .p5 [7]).image.length ∧
    0 < (Config.standard .p5 [7]).rBytes ∧ (Config.standard .p5 [7]).progEnd ≤ 262141 := by decide
theorem witness_EmptyImageHaltsAtOnce : (Config.standard .p4 []).Described ∧ (Config.standard .p4 []).image = [] ∧ (Config.standard .p4 []).rBytes < 2 ^ 32 := by decide
theorem witness_BootMeetsInvariant : (Config.standard .p4 [1, 2, 3]).valid = true := by decide
theorem witness_StepKeepsInvariant : (at5 [0x7F]).Inv ∧
    step (at5 [0x7F]) = .next (((at5 [0x7F]).setArray .ram ((at5 [0x7F]).ram.write32 0 0)).advance 1) := ⟨by decide, rfl⟩
theorem witness_NormalEndExactly : State.reset.run = .running ∧ State.reset.cause = .none ∧
    RunsTo 1 State.reset State.reset.haltNormally ∧ Ended State.reset.haltNormally := ⟨rfl, rfl, ⟨_, rfl, rfl⟩, rfl⟩
theorem witness_ZeroedRegionRunsThrough : (((at4 []).setX .ip 0).cfg = Config.standard .p4 []) ∧
    ((at4 []).setX .ip 0).run = .running ∧ (∀ b, b < 262140 → ((at4 []).setX .ip 0).ram.read b = 0) ∧
    (((at4 []).setX .ip 0).x .ip).toNat = 0 ∧ 0 + 5 * 52428 ≤ 262140 ∧ ((at4 []).setX .ip 0).x .ip = 0 :=
  ⟨rfl, rfl, fun _ _ => rfl, rfl, by decide, rfl⟩
theorem witness_RegisterFileAsConfigured : State.reset.cfg.Described ∧ 0xFFFFFFFF < 2 ^ State.reset.cfg.xlen ∧
    6 < State.reset.cfg.nreg ∧ Reg.fl ≠ .ip := by decide

end Sys2Proof.Tests
end

section
/-! PROOFS. The parameters of `00_scope.md` R5: their defaults, and what `XLEN` and `NREG` say of the register file. -/

namespace Sys2Proof

/-! ### Register indices (`10_state.md` R21) -/

theorem index_lt_seven (r : Reg) : r.index < 7 := by cases r <;> decide

theorem index_injective : Function.Injective Reg.index := Function.LeftInverse.injective regMap_index

theorem index_regMap {n : Nat} (h : n < 7) : (regMap n).index = n := by
  interval_cases n <;> rfl

/-- The seven registers are numbered 0 to 6, one register each. -/
theorem existsUnique_index {n : Nat} (h : n < 7) : ∃ r : Reg, r.index = n ∧ ∀ q : Reg, q.index = n → q = r :=
  ⟨regMap n, index_regMap h, fun _ hq => index_injective (hq.trans (index_regMap h).symm)⟩

/-! ### Parameters derived from the defaults -/

theorem standard_memSize (p : Profile) (image : List Byte) :
    (Config.standard p image).memSize = (Config.standard p image).progEnd := rfl

namespace Machine

/-- A register takes any 32-bit value and gives it back, as a number. -/
theorem x_setX_ofNat_toNat (s : State) (r : Reg) {n : Nat} (h : n < 2 ^ 32) :
    ((s.setX r (BitVec.ofNat 32 n)).x r).toNat = n := by
  rw [x_setX_self, BitVec.toNat_ofNat, Nat.mod_eq_of_lt h]

/-! ### The obligations -/

/-- Settles O59: each row is a field of `Config.standard` or, for `PROG_LEN` and `PROG_END`, computed from its fields. -/
theorem parameterDefaults : Obligations.ParameterDefaults := by
  unfold Obligations.ParameterDefaults
  rintro p image _ rfl
  exact ⟨rfl, rfl, rfl, rfl, rfl, rfl, rfl, rfl, rfl, standard_memSize p image, rfl, rfl, rfl⟩

/-- Settles O60: with `XLEN` 32 and `NREG` 7 these are the laws of a 32-bit word, of the accessors and of the indices. -/
theorem registerFileAsConfigured : Obligations.RegisterFileAsConfigured := by
  unfold Obligations.RegisterFileAsConfigured
  rintro s ⟨hxlen, hnreg⟩
  rw [hxlen, hnreg]
  exact ⟨fun r => (s.x r).isLt, fun _ hn r => x_setX_ofNat_toNat s r hn, index_lt_seven,
    fun _ hn => existsUnique_index hn, fun _ _ v h => x_setX_ne s v h⟩

end Machine

end Sys2Proof
end

section
/-! PROOFS. The state (`10_state.md`): the invariant, `run` and `cause`, the parameters, the registers an instruction may
change, and the reset values. -/

namespace Sys2Proof.Machine

/-! ### The invariant, one lemma per update -/

theorem inv_setX {s : State} (r : Reg) (v : Word) (h : s.Inv) : (s.setX r v).Inv := by
  simpa only [State.Inv, setX_cfg, setX_run, setX_cause, setX_ram, setX_dev] using h

theorem inv_advance {s : State} (n : Nat) (h : s.Inv) : (s.advance n).Inv := inv_setX _ _ h

/-- Leaving RUNNING keeps the invariant, whatever the cause then is. -/
theorem inv_raise {s : State} (f : Cause) (h : s.Inv) : (s.raise f).Inv := by
  obtain ⟨hcfg, hram, hramSize, hdev, hdevSize, hmmio, -⟩ := h
  exact ⟨hcfg, hram, hramSize, hdev, hdevSize, hmmio, fun e => nomatch e⟩

theorem inv_haltNormally {s : State} (h : s.Inv) : s.haltNormally.Inv := inv_raise s.cause h

/-- A word stored where `Translate` allows it stays inside its array, and reaches `DEV` only under `MMIO_EN`. -/
theorem inv_store {s : State} {a : Word} {g : Region} {off : Nat} (v : Word) (h : s.Inv)
    (ht : translateAddr s.cfg a = some (g, off)) : (s.setArray g ((s.array g).write32 off v)).Inv := by
  obtain ⟨hcfg, hram, hramSize, hdev, hdevSize, hmmio, hrun⟩ := h
  rcases translateAddr_eq_some ht with ⟨rfl, hen, -, -, hoff⟩ | ⟨rfl, -, -, hoff⟩
  · exact ⟨hcfg, hram, hramSize, write32_wf off v hdev, write32_below v hoff hdevSize,
      fun hno => absurd (hen.symm.trans hno) (by decide), hrun⟩
  · exact ⟨hcfg, write32_wf off v hram, write32_below v hoff hramSize, hdev, hdevSize, hmmio, hrun⟩

theorem exec_keeps_inv {i : Instr} {s t : State} (hs : s.Inv) (h : exec i s = .next t) : t.Inv := by
  rcases exec_cases i s with ⟨rd, v, _, _, _, e⟩ | ⟨target, _, _, _, e⟩ | ⟨a, v, g, off, _, _, _, ht, e⟩ |
    ⟨a, _, _, e⟩ | ⟨b, _, e⟩ <;> cases e.symm.trans h
  · exact inv_advance _ (inv_setX rd v hs)
  · exact inv_setX .ip target hs
  · exact inv_advance _ (inv_store v hs ht)
  · exact inv_raise _ hs
  · exact inv_raise _ hs

/-- Settles O56: a step changes the state only by the updates above. -/
theorem stepKeepsInvariant : Obligations.StepKeepsInvariant := by
  unfold Obligations.StepKeepsInvariant
  intro s t hs h
  rcases step_next_cases h with ⟨_, rfl⟩ | ⟨_, _, _, rfl⟩ | ⟨_, _, _, _, rfl⟩ | ⟨i, _, _, _, _, e⟩
  · exact hs
  · exact inv_haltNormally hs
  · exact inv_raise _ hs
  · exact exec_keeps_inv hs e

/-! ### Changes of the state that no instruction sees -/

/-- `φ` changes only what no instruction reads or writes: the registers, both arrays and `Translate` are as before, and
register and array writes commute with it. -/
structure Unseen (φ : State → State) : Prop where
  x : ∀ s r, (φ s).x r = s.x r
  array : ∀ s g, (φ s).array g = s.array g
  translate : ∀ s a, translateAddr (φ s).cfg a = translateAddr s.cfg a
  setX : ∀ s r v, (φ s).setX r v = φ (s.setX r v)
  setArray : ∀ s g m, (φ s).setArray g m = φ (s.setArray g m)

/-- The outcomes `o` from `s` and `o'` from `φ s` are alike: both applied, with `run` and `cause` as in `s` and the change `φ`
carried over, or both the entry of the same fault. -/
def Alike (φ : State → State) (s : State) (o o' : Host.Outcome State Fault Refusal) : Prop :=
  (∃ u, o = .next u ∧ o' = .next (φ u) ∧ u.run = s.run ∧ u.cause = s.cause) ∨
    ∃ f, f ≠ .none ∧ o = .next (s.raise f) ∧ o' = .next ((φ s).raise f)

namespace Unseen

variable {φ : State → State} (hφ : Unseen φ)
include hφ

theorem advance (s : State) (n : Nat) : (φ s).advance n = φ (s.advance n) := by
  unfold State.advance
  rw [hφ.x, hφ.setX]

theorem alike_result (s : State) (rd : Reg) (v : Word) (n : Nat) :
    Alike φ s (.next ((s.setX rd v).advance n)) (.next (((φ s).setX rd v).advance n)) :=
  .inl ⟨_, rfl, by rw [hφ.setX, hφ.advance], by simp, by simp⟩

theorem alike_jump (s : State) (p : Prop) [Decidable p] (target : Word) (n : Nat) :
    Alike φ s (.next (if p then s.setX .ip target else s.advance n))
      (.next (if p then (φ s).setX .ip target else (φ s).advance n)) := by
  split
  · exact .inl ⟨_, rfl, by rw [hφ.setX], by simp, by simp⟩
  · exact .inl ⟨_, rfl, by rw [hφ.advance], by simp, by simp⟩

theorem alike_store (s : State) (g : Region) (m : Memory) (n : Nat) :
    Alike φ s (.next ((s.setArray g m).advance n)) (.next (((φ s).setArray g m).advance n)) :=
  .inl ⟨_, rfl, by rw [hφ.setArray, hφ.advance], by simp, by simp⟩

/-- Every instruction does the same to `φ s` as to `s`. -/
theorem alike_exec (i : Instr) (s : State) : Alike φ s (exec i s) (exec i (φ s)) := by
  cases i with
  | movi | mov | addi | add | subi | sub | andi | andr | ori | orr | notr =>
    simp only [exec_movi, exec_mov, exec_addi, exec_add, exec_subi, exec_sub, exec_andi, exec_andr, exec_ori, exec_orr,
      exec_notr, hφ.x]
    exact hφ.alike_result ..
  | je | jl | jez =>
    simp only [exec_je, exec_jl, exec_jez, hφ.x]
    exact hφ.alike_jump ..
  | ld rd imm =>
    have hφt := hφ.translate s imm
    cases ht : translateAddr s.cfg imm with
    | none => exact .inr ⟨_, by decide, exec_ld_none ht, exec_ld_none (hφt.trans ht)⟩
    | some p =>
      rw [exec_ld_some (g := p.1) (off := p.2) ht, exec_ld_some (g := p.1) (off := p.2) (hφt.trans ht), hφ.array]
      exact hφ.alike_result ..
  | st rd imm =>
    have hφt := hφ.translate s imm
    cases ht : translateAddr s.cfg imm with
    | none => exact .inr ⟨_, by decide, exec_st_none ht, exec_st_none (hφt.trans ht)⟩
    | some p =>
      rw [exec_st_some (g := p.1) (off := p.2) ht, exec_st_some (g := p.1) (off := p.2) (hφt.trans ht), hφ.array, hφ.x]
      exact hφ.alike_store ..
  | stf rd =>
    have hφt : translateAddr (φ s).cfg ((φ s).x .fl) = translateAddr s.cfg (s.x .fl) := by rw [hφ.x, hφ.translate]
    cases ht : translateAddr s.cfg (s.x .fl) with
    | none => exact .inr ⟨_, by decide, exec_stf_none ht, exec_stf_none (hφt.trans ht)⟩
    | some p =>
      rw [exec_stf_some (g := p.1) (off := p.2) ht, exec_stf_some (g := p.1) (off := p.2) (hφt.trans ht), hφ.array, hφ.x]
      exact hφ.alike_store ..
  | invalid b => exact .inr ⟨_, by decide, exec_invalid b s, exec_invalid b (φ s)⟩

/-- What an instruction did from `s`, it does from `φ s`. -/
theorem exec_next {i : Instr} {s t : State} (h : exec i s = .next t) :
    (t.run = s.run ∧ t.cause = s.cause ∧ exec i (φ s) = .next (φ t)) ∨
      ∃ f, f ≠ .none ∧ t = s.raise f ∧ exec i (φ s) = .next ((φ s).raise f) := by
  rcases hφ.alike_exec i s with ⟨u, e, eφ, hrun, hcause⟩ | ⟨f, hf, e, eφ⟩ <;> cases e.symm.trans h
  · exact .inl ⟨hrun, hcause, eφ⟩
  · exact .inr ⟨f, hf, rfl, eφ⟩

end Unseen

/-- `s` with another value of `run`. -/
def withRun (r : Run) (s : State) : State := { s with run := r }

/-- `s` with another value of `cause`. -/
def withCause (q : Cause) (s : State) : State := { s with cause := q }

theorem withRun_unseen (r : Run) : Unseen (withRun r) where
  x _ q := by cases q <;> rfl
  array _ g := by cases g <;> rfl
  translate _ _ := rfl
  setX _ q _ := by cases q <;> rfl
  setArray _ g _ := by cases g <;> rfl

theorem withCause_unseen (q : Cause) : Unseen (withCause q) where
  x _ r := by cases r <;> rfl
  array _ g := by cases g <;> rfl
  translate _ _ := rfl
  setX _ r _ := by cases r <;> rfl
  setArray _ g _ := by cases g <;> rfl

/-! ### `run` and `cause` (`10_state.md` R29, R30) -/

/-- A step from RUNNING halts exactly at the end of the program or by a fault. -/
theorem step_halts_iff {s t : State} (hs : s.run = .running) (h : step s = .next t) :
    t.run = .halted ↔ s.cfg.progEnd ≤ (s.x .ip).toNat ∨ ∃ f, f ≠ .none ∧ FaultEntered s t f := by
  rcases step_status h with ⟨hh, _⟩ | ⟨_, hend, rfl⟩ | ⟨_, hlt, ⟨hrun, _⟩ | ⟨f, hf, rfl⟩⟩
  · exact nomatch hs.symm.trans hh
  · exact iff_of_true rfl (.inl hend)
  · refine iff_of_false (fun e => nomatch hrun.symm.trans e) ?_
    rintro (hend | ⟨f, _, _, hhalt, _⟩)
    · exact Nat.not_lt.mpr hend hlt
    · exact nomatch hrun.symm.trans hhalt
  · exact iff_of_true rfl (.inr ⟨f, hf, faultEntered_raise s f⟩)

/-- From a halted state any number of steps leads back to it. -/
theorem runsTo_self_of_halted {s : State} (hs : s.run = .halted) (k : Nat) : RunsTo k s s := by
  induction k with
  | zero => rfl
  | succ k ih => exact ⟨s, step_halted hs, ih⟩

theorem runsTo_halted_iff {s : State} (hs : s.run = .halted) (k : Nat) (t : State) : RunsTo k s t ↔ t = s :=
  ⟨runsTo_halted hs, fun e => e ▸ runsTo_self_of_halted hs k⟩

/-- Where RUNNING implies NONE, a step sets `cause` at most once, as it halts, and RUNNING goes on implying NONE. -/
theorem step_cause {s t : State} (hs : s.run = .running → s.cause = .none) (h : step s = .next t) :
    (s.cause ≠ .none → t.cause = s.cause) ∧ (t.cause ≠ s.cause → s.run = .running ∧ t.run = .halted) ∧
      (t.run = .running → t.cause = .none) := by
  rcases step_status h with ⟨_, rfl⟩ | ⟨_, _, rfl⟩ | ⟨hr, _, ⟨_, hcause⟩ | ⟨f, _, rfl⟩⟩
  · exact ⟨fun _ => rfl, fun hne => absurd rfl hne, hs⟩
  · exact ⟨fun _ => rfl, fun hne => absurd rfl hne, fun e => nomatch e⟩
  · exact ⟨fun _ => hcause, fun hne => absurd hcause hne, fun _ => hcause.trans (hs hr)⟩
  · exact ⟨fun hne => absurd (hs hr) hne, fun _ => ⟨hr, rfl⟩, fun e => nomatch e⟩

/-- Settles O42: a step halts only in two ways, a halted machine stays as it is, and `run` is unseen by instructions. -/
theorem runField : Obligations.RunField := by
  unfold Obligations.RunField
  refine ⟨fun _ => rfl, fun _ _ => step_halts_iff, fun _ t k hs => runsTo_halted_iff hs k t, fun _ _ => rfl,
    fun i s t r h => ?_⟩
  rcases (withRun_unseen r).exec_next h with ⟨hrun, _, e⟩ | ⟨f, hf, rfl, e⟩
  · exact .inl ⟨hrun, e⟩
  · exact .inr ⟨f, hf, faultEntered_raise s f, e⟩

/-- Settles O43: a step changes `cause` only by a fault entry, from NONE, and `cause` is unseen by instructions. -/
theorem causeField : Obligations.CauseField := by
  unfold Obligations.CauseField
  refine ⟨rfl, rfl, rfl, rfl, fun _ => rfl, fun _ _ => step_cause, fun i s t q h => ?_⟩
  rcases (withCause_unseen q).exec_next h with ⟨_, hcause, e⟩ | ⟨f, hf, rfl, e⟩
  · exact .inl ⟨hcause, e⟩
  · exact .inr ⟨f, hf, faultEntered_raise s f, e⟩

/-! ### What instructions and runs leave unchanged -/

/-- Settles O45: only a result, written to the destination, changes a register other than the pointer. -/
theorem onlyNamedRegistersChange : Obligations.OnlyNamedRegistersChange := by
  unfold Obligations.OnlyNamedRegistersChange
  intro i s t r h hip hne
  rcases exec_cases i s with ⟨rd, v, hdest, _, _, e⟩ | ⟨target, _, _, _, e⟩ | ⟨a, v, g, off, _, _, _, _, e⟩ |
    ⟨a, _, _, e⟩ | ⟨b, _, e⟩ <;> cases e.symm.trans h
  · by_cases hr : r = rd
    · rw [hr, hdest]
    · rw [advance_x_ne _ _ hip, x_setX_ne _ _ hr] at hne
      exact absurd rfl hne
  · exact absurd (x_setX_ne s target hip) hne
  · rw [advance_x_ne _ _ hip, setArray_x] at hne
    exact absurd rfl hne
  · exact absurd (raise_x ..) hne
  · exact absurd (raise_x ..) hne

/-- Settles O47: no step changes the parameters, and so no run does. -/
theorem parametersNeverChange : Obligations.ParametersNeverChange := by
  unfold Obligations.ParametersNeverChange
  intro k s t h
  exact runsTo_induction (P := fun u => u.cfg = s.cfg) (fun _ _ hu hstep => (step_keeps_cfg hstep).trans hu) h rfl

/-! ### Reset (`10_state.md` R35) -/

theorem boot_x_ne_ip (c : Config) {r : Reg} (h : r ≠ .ip) : (State.boot c).x r = 0 := by
  cases r with
  | ip => exact absurd rfl h
  | r0 | r1 | r2 | r3 | r4 | fl => rfl

theorem boot_ip_toNat {c : Config} (h : c.rBytes < 2 ^ 32) : ((State.boot c).x .ip).toNat = c.rBytes :=
  (BitVec.toNat_ofNat ..).trans (Nat.mod_eq_of_lt h)

theorem boot_ram_image (c : Config) {k : Nat} (h : k < c.image.length) :
    (State.boot c).ram.read (c.rBytes + k) = c.image[k] :=
  (read_load c.rBytes c.image k).trans (List.getD_eq_getElem _ _ h)

theorem boot_ram_past_image {c : Config} {a : Nat} (h : c.progEnd ≤ a) : (State.boot c).ram.read a = 0 := by
  have hend : c.rBytes + c.image.length ≤ a := h
  obtain ⟨k, rfl⟩ := Nat.exists_eq_add_of_le (Nat.le_of_add_right_le hend)
  exact (read_load c.rBytes c.image k).trans (List.getD_eq_default _ _ (by omega))

/-- Settles O52: the registers by cases, RAM by the laws of a loaded image. -/
theorem resetState : Obligations.ResetState := by
  unfold Obligations.ResetState
  rintro c _ rfl
  exact ⟨rfl, fun _ => boot_x_ne_ip c, boot_ip_toNat, fun _ _ hc => hc ▸ rfl, rfl, rfl,
    fun _ => read_load_low c.image, fun _ => boot_ram_image c, fun _ => boot_ram_past_image, fun _ => rfl,
    fun t => hostReset_eq_boot t c⟩

theorem progEnd_le_memSize {c : Config} (h : c.valid = true) : c.progEnd ≤ c.memSize := by
  simp only [Config.valid, Bool.and_eq_true, decide_eq_true_eq] at h
  omega

/-- After a reset with valid parameters the loaded image is canonical and fits RAM, and `DEV` is empty. -/
theorem boot_inv {c : Config} (h : c.valid = true) : (State.boot c).Inv :=
  ⟨h, load_wf c.rBytes c.image, load_below c.rBytes c.image (progEnd_le_memSize h), rfl, rfl, fun _ => rfl, fun _ => rfl⟩

/-- Settles O55: the invariant's memory clauses are the laws of a loaded image. -/
theorem bootMeetsInvariant : Obligations.BootMeetsInvariant := fun _ => boot_inv

/-- Settles O54: the default parameters with the empty image are valid. -/
theorem resetMeetsInvariant : Obligations.ResetMeetsInvariant := boot_inv (by decide)

end Sys2Proof.Machine
end

section
/-! PROOFS. Memory (`20_memory.md`): `Translate` and its bounds, reads and writes, what a store lets later loads and fetches
see, the device buffer; and, for the fetch of stored code, that an encoded instruction is decoded and run. -/

namespace Sys2Proof

/-! ### Decoding an encoded instruction (`30_encoding.md` R98) -/

/-- The encoding of a well-formed instruction decodes to it, whatever bytes follow. -/
theorem decode_encode_append {c : Config} {i : Instr} (h : i.wf c = true) (rest : List Byte) :
    decode c (encode c i ++ rest) = .ok i := by
  cases i with
  | movi | je | jl | addi | subi | andi | ori | ld | st => exact decode_assembleRI h rfl ..
  | mov | add | sub | andr | orr => exact decode_assembleRR h rfl ..
  | notr | stf | jez => exact decode_assemble_R h rfl ..
  | invalid b => exact decode_invalid rest (Option.isNone_iff_eq_none.mp h)

/-- There is no empty encoding: the decoder rejects an empty list of bytes. -/
theorem encode_length_pos {c : Config} {i : Instr} (h : i.wf c = true) : 0 < (encode c i).length := by
  refine List.length_pos_iff.mpr fun hnil => ?_
  have hd := decode_encode_append h []
  rw [hnil] at hd
  exact nomatch hd

namespace Machine

/-- A RUNNING machine with a well-formed instruction encoded at the pointer, wholly below the end of the program and in no
more bytes than the decoder is given, runs it (`45_step_and_blocks.md` R170, R175). -/
theorem step_encoded {s : State} {i : Instr} (hrun : s.run = .running) (hc : s.cfg.Runnable) (hwf : i.wf s.cfg = true)
    (hlen : (encode s.cfg i).length ≤ 5) (hend : (s.x .ip).toNat + (encode s.cfg i).length ≤ s.cfg.progEnd)
    (hbytes : ∀ (k : Nat) (h : k < (encode s.cfg i).length),
      fetchByte s ((s.x .ip).toNat + k) = (encode s.cfg i)[k]) : step s = exec i s := by
  have hpos := encode_length_pos hwf
  obtain ⟨rest, hrest⟩ := fetchBytes_eq_append hlen hend hbytes
  refine step_decoded hrun (by omega) hc ?_
  rw [decodeAt, hrest, decode_encode_append hwf]

/-! ### `Translate` (R56 to R58) -/

theorem translateAddr_of_dev {c : Config} {a : Word} (hen : c.mmioEn = true) (ha : c.devBase ≤ a.toNat) :
    translateAddr c a =
      if a.toNat - c.devBase + 4 ≤ c.devSize then some (.dev, a.toNat - c.devBase) else none :=
  if_pos ⟨hen, ha⟩

theorem translateAddr_of_ram {c : Config} {a : Word} (h : c.mmioEn = false ∨ a.toNat < c.devBase) :
    translateAddr c a = if a.toNat + 4 ≤ c.memSize then some (.ram, a.toNat) else none := by
  refine if_neg ?_
  rintro ⟨hen, ha⟩
  rcases h with hno | hlt
  · exact nomatch hen.symm.trans hno
  · exact Nat.not_lt.mpr ha hlt

theorem translateAddr_dev_ne_none_iff {c : Config} {a : Word} (hen : c.mmioEn = true) (ha : c.devBase ≤ a.toNat) :
    translateAddr c a ≠ none ↔ a.toNat - c.devBase + 4 ≤ c.devSize := by
  rw [translateAddr_of_dev hen ha, ne_eq, ite_eq_right_iff]
  simp

theorem translateAddr_ram_ne_none_iff {c : Config} {a : Word} (h : c.mmioEn = false ∨ a.toNat < c.devBase) :
    translateAddr c a ≠ none ↔ a.toNat + 4 ≤ c.memSize := by
  rw [translateAddr_of_ram h, ne_eq, ite_eq_right_iff]
  simp

/-- A read is possible exactly where `Translate` gives a location. -/
theorem memRead_eq_none_iff (s : State) (a : Word) : memRead s a = none ↔ translateAddr s.cfg a = none := by
  cases h : translateAddr s.cfg a with
  | none => exact iff_of_true (memRead_none h) rfl
  | some p => simp [memRead_some (g := p.1) (off := p.2) h]

/-- A write is possible exactly where `Translate` gives a location. -/
theorem memWrite_eq_none_iff (s : State) (a v : Word) : memWrite s a v = none ↔ translateAddr s.cfg a = none := by
  cases h : translateAddr s.cfg a with
  | none => exact iff_of_true (memWrite_none h) rfl
  | some p => simp [memWrite_some (g := p.1) (off := p.2) h]

/-- Settles O28: the two arms of `Translate`, each in and out of bounds, and the accesses by its answer. -/
theorem translateRule : Obligations.TranslateRule := by
  unfold Obligations.TranslateRule
  refine ⟨fun c a => ⟨fun hen ha => ?_, fun h => ?_⟩,
    fun s a v => ⟨memRead_eq_none_iff s a, memWrite_eq_none_iff s a v⟩⟩
  · rw [translateAddr_of_dev hen ha]
    exact ⟨fun hin => if_pos hin, fun hout => if_neg (Nat.not_le.mpr hout)⟩
  · rw [translateAddr_of_ram h]
    exact ⟨fun hin => if_pos hin, fun hout => if_neg (Nat.not_le.mpr hout)⟩

/-- Settles O29: the RAM arm's bound; at 0xFFFFFFFD even 2^32 bytes are too few; the default `MEM_SIZE` is `PROG_END`. -/
theorem ramBounds : Obligations.RamBounds := by
  unfold Obligations.RamBounds
  refine ⟨fun c a h => translateAddr_ram_ne_none_iff h, fun c hno hsize => ?_, fun p image a ha => ?_⟩
  · rw [translateAddr_of_ram (.inl hno), hsize]
    rfl
  · rw [translateAddr_ram_ne_none_iff (.inr ha), standard_memSize]

/-- Settles O30: the device arm's bound, and the arithmetic of the default `DEV_BASE` and `DEV_SIZE`. -/
theorem deviceBounds : Obligations.DeviceBounds := by
  unfold Obligations.DeviceBounds
  refine ⟨fun c a hen ha => translateAddr_dev_ne_none_iff hen ha, fun p image a ha => ?_⟩
  have hbound : translateAddr (Config.standard p image) a ≠ none ↔ a.toNat - 0xFFFF0000 + 4 ≤ 0x2A00 :=
    translateAddr_dev_ne_none_iff rfl ha
  rw [hbound]
  omega

/-! ### Reading and writing a word (R60, R61) -/

/-- A word stored is the word read back at the same offset. -/
@[simp] theorem read32_write32 (m : Memory) (off : Nat) (v : Word) : (m.write32 off v).read32 off = v := by
  simp [Memory.read32, read_write32]

/-- Settles O31: the word is the four bytes put together. -/
theorem memReadRule : Obligations.MemReadRule := by
  unfold Obligations.MemReadRule
  exact fun s a => ⟨memRead_none, fun g off h => ⟨_, memRead_some h, leWord_toNat ..⟩⟩

/-- Settles O32: a write is the store of a word without the advance of the pointer. -/
theorem memWriteRule : Obligations.MemWriteRule := by
  unfold Obligations.MemWriteRule
  refine fun s a v => ⟨memWrite_none, fun g off h => ⟨_, memWrite_some h, ?_⟩⟩
  obtain ⟨-, -, hstatus, hbytes, hframe⟩ := storedWord_setArray_advance s g off v 0
  simp only [advance_array] at hbytes hframe
  exact ⟨hbytes 0 (by decide), hbytes 1 (by decide), hbytes 2 (by decide), hbytes 3 (by decide), hframe, hstatus,
    setArray_regs ..⟩

/-! ### What a store lets the next instruction see (R64, R69) -/

/-- Settles O33: the load translates as the store did and reads back the word. -/
theorem storeThenLoad : Obligations.StoreThenLoad := by
  unfold Obligations.StoreThenLoad
  intro s rd rq imm hne
  obtain ⟨⟨g, off⟩, ht⟩ := Option.ne_none_iff_exists'.mp hne
  refine ⟨_, _, exec_st_some ht, exec_ld_some (g := g) (off := off) (by simpa using ht), ?_⟩
  rw [advance_array, array_setArray_self, read32_write32]
  exact resultIn_setX_advance ..

/-- After a store to RAM that is retired, a fetch from the four bytes stored sees the word. -/
theorem fetchByte_stored (s : State) (off len : Nat) (v : Word) {k : Nat} (hk : k < 4) :
    fetchByte ((s.setArray .ram ((s.array .ram).write32 off v)).advance len) (off + k) = byteOf k v := by
  obtain ⟨-, -, -, hbytes, -⟩ := storedWord_setArray_advance s .ram off v len
  exact hbytes k hk

/-- Settles O34: the pointer advances to the address stored to, and the bytes fetched there are those of the encoding. -/
theorem storedCodeRuns : Obligations.StoredCodeRuns := by
  unfold Obligations.StoredCodeRuns
  rintro s rd _ i n hrun hwf rfl hn rfl ht hend hc hbytes
  have hst := exec_st_some (rd := rd) ht
  have hcfg := exec_keeps_cfg hst
  refine ⟨_, hst, step_encoded (by simpa using hrun) (hcfg ▸ hc) (hcfg ▸ hwf) ?_ ?_ ?_⟩
  · rw [hcfg]
    omega
  · simpa using hend
  · simp only [hcfg, advance_ip, setArray_x]
    exact fun k hk => (fetchByte_stored s _ 5 (s.x rd) (by omega)).trans (hbytes k hk)

/-! ### The device buffer (R71) -/

/-- A colour byte is its two nibbles. -/
theorem colour_toNat (b : Byte) : b.toNat = 16 * (foreground b).toNat + (background b).toNat := by
  have hfg : (foreground b).toNat = b.toNat / 16 % 16 := by
    simp [foreground, BitVec.extractLsb'_toNat, Nat.shiftRight_eq_div_pow]
  have hbg : (background b).toNat = b.toNat % 16 := by
    simp [background, BitVec.extractLsb'_toNat]
  have hb := b.isLt
  omega

/-- Settles O35: the cells are the bytes stored, by the frame of a store into `DEV`. -/
theorem deviceCells : Obligations.DeviceCells := by
  unfold Obligations.DeviceCells
  refine ⟨fun s rd imm k hen ha hsize => ?_, colour_toNat⟩
  have ht : translateAddr s.cfg imm = some (.dev, 2 * k) := by
    rw [translateAddr_of_dev hen (by omega), ha, Nat.add_sub_cancel_left, if_pos hsize]
  obtain ⟨-, -, -, hbytes, hframe⟩ := storedWord_setArray_advance s .dev (2 * k) (s.x rd) 5
  refine ⟨_, exec_st_some ht, hbytes 0 (by decide), hbytes 1 (by decide), hbytes 2 (by decide), hbytes 3 (by decide),
    fun j hk hk' => ⟨hframe .dev (2 * j) ?_, hframe .dev (2 * j + 1) ?_⟩⟩
  · rintro ⟨-, hlo, hhi⟩
    omega
  · rintro ⟨-, hlo, hhi⟩
    omega

/-! ### What changes memory (R61, R63) -/

/-- Settles O46: of the five things an instruction can do only the store touches an array, and that in four bytes. -/
theorem memoryChangesOnlyByStores : Obligations.MemoryChangesOnlyByStores := by
  unfold Obligations.MemoryChangesOnlyByStores
  intro i s t g b h hne
  rcases exec_cases i s with ⟨rd, v, _, _, _, e⟩ | ⟨target, _, _, _, e⟩ | ⟨a, v, g', off, ha, _, _, ht, e⟩ |
    ⟨a, _, _, e⟩ | ⟨byte0, _, e⟩ <;> cases e.symm.trans h
  · exact absurd (by simp) hne
  · exact absurd (by simp) hne
  · obtain ⟨-, -, -, -, hframe⟩ := storedWord_setArray_advance s g' off v i.len
    obtain ⟨rfl, hlo, hhi⟩ := not_imp_comm.mp (hframe g b) hne
    exact ⟨a, off, ha, ht, hlo, hhi⟩
  · exact absurd (by simp) hne
  · exact absurd (by simp) hne

/-! ### What sees the device buffer (R62) -/

theorem setArray_advance (s : State) (g : Region) (m : Memory) (n : Nat) :
    (s.setArray g m).advance n = (s.advance n).setArray g m := by
  rw [State.advance, setArray_x, setArray_setX, State.advance]

theorem setArray_raise (s : State) (g : Region) (m : Memory) (f : Cause) :
    (s.setArray g m).raise f = (s.raise f).setArray g m := by cases g <;> rfl

theorem setArray_haltNormally (s : State) (g : Region) (m : Memory) :
    (s.setArray g m).haltNormally = s.haltNormally.setArray g m := by cases g <;> rfl

/-- Fetch reads RAM alone, so the buffer has no part in what is decoded. -/
theorem decodeAt_setArray_dev (s : State) (d : Memory) : decodeAt (s.setArray .dev d) = decodeAt s := rfl

/-- A store does the same whatever `DEV` held before, but for what `DEV` then holds. -/
theorem store_setArray_dev (s : State) (d : Memory) (g : Region) (off : Nat) (v : Word) : ∃ d',
    (s.setArray .dev d).setArray g (((s.setArray .dev d).array g).write32 off v) =
      (s.setArray g ((s.array g).write32 off v)).setArray .dev d' := by
  cases g with
  | ram => exact ⟨d, rfl⟩
  | dev => exact ⟨d.write32 off v, rfl⟩

theorem retire_applyStore_setArray_dev (s : State) (d : Memory) (len : Nat) (a v : Word) {t : State}
    (h : retire s len (applyStore s a v) = .next t) :
    ∃ d', retire (s.setArray .dev d) len (applyStore (s.setArray .dev d) a v) = .next (t.setArray .dev d') := by
  cases ht : translateAddr s.cfg a with
  | none =>
    cases (retire_applyStore_none len v ht).symm.trans h
    exact ⟨d, (retire_applyStore_none len v (by simpa using ht)).trans (by rw [setArray_raise])⟩
  | some p =>
    obtain ⟨g, off⟩ := p
    cases (retire_applyStore_some len v ht).symm.trans h
    obtain ⟨d', hd'⟩ := store_setArray_dev s d g off v
    exact ⟨d', (retire_applyStore_some (g := g) (off := off) len v (by simpa using ht)).trans
      (by rw [hd', setArray_advance])⟩

/-- An instruction that is no LD from `DEV` does the same whatever `DEV` held before, but for what `DEV` then holds. -/
theorem exec_setArray_dev {i : Instr} {s t : State} (d : Memory)
    (hld : ∀ rd imm off, i = .ld rd imm → translateAddr s.cfg imm ≠ some (.dev, off)) (h : exec i s = .next t) :
    ∃ d', exec i (s.setArray .dev d) = .next (t.setArray .dev d') := by
  cases i with
  | movi | mov | addi | add | subi | sub | andi | andr | ori | orr | notr =>
    cases h
    refine ⟨d, ?_⟩
    simp only [exec_movi, exec_mov, exec_addi, exec_add, exec_subi, exec_sub, exec_andi, exec_andr, exec_ori, exec_orr,
      exec_notr, setArray_x, setArray_setX, setArray_advance]
    rfl
  | je | jl | jez =>
    simp only [exec_je, exec_jl, exec_jez] at h
    cases h
    refine ⟨d, ?_⟩
    simp only [exec_je, exec_jl, exec_jez, setArray_x, setArray_setX, setArray_advance]
    split <;> rfl
  | ld rd imm =>
    refine ⟨d, ?_⟩
    cases ht : translateAddr s.cfg imm with
    | none =>
      cases (exec_ld_none ht).symm.trans h
      rw [exec_ld_none (by simpa using ht), setArray_raise]
    | some p =>
      obtain ⟨g, off⟩ := p
      cases g with
      | dev => exact absurd ht (hld rd imm off rfl)
      | ram =>
        cases (exec_ld_some ht).symm.trans h
        rw [exec_ld_some (g := .ram) (off := off) (by simpa using ht), setArray_setX, setArray_advance]
        rfl
  | st rd imm => exact retire_applyStore_setArray_dev s d _ _ _ h
  | stf rd => exact retire_applyStore_setArray_dev s d _ _ _ h
  | invalid b =>
    cases h
    exact ⟨d, (exec_invalid b _).trans (by rw [setArray_raise])⟩

/-- Settles O49: the buffer has no part in the way a step goes, nor in an instruction but an LD from it. -/
theorem deviceContentsReachOnlyLoads : Obligations.DeviceContentsReachOnlyLoads := by
  unfold Obligations.DeviceContentsReachOnlyLoads
  intro s t d hld h
  have hdecode := decodeAt_setArray_dev s d
  rcases step_next_cases h with ⟨hr, rfl⟩ | ⟨hr, hc, hend, rfl⟩ | ⟨hr, hlt, hc, hd, rfl⟩ | ⟨i, hr, hlt, hc, hd, e⟩
  · exact ⟨d, step_halted hr⟩
  · exact ⟨d, by rw [step_atEnd (s := s.setArray .dev d) hr hc hend, setArray_haltNormally]⟩
  · exact ⟨d, by rw [step_decodeError (s := s.setArray .dev d) hr hlt hc (hdecode.trans hd), setArray_raise]⟩
  · obtain ⟨d', hd'⟩ := exec_setArray_dev d (fun rd imm off hi => hld rd imm off (hi ▸ hd)) e
    exact ⟨d', (step_decoded (s := s.setArray .dev d) hr hlt hc (hdecode.trans hd)).trans hd'⟩

end Machine

end Sys2Proof
end

section
/-! PROOFS. The encoding (`30_encoding.md`): the fields of byte 0 and byte 1, the default opcode maps, the inversion of the
decoder, the round trip; that a meaning sees neither the profile nor the opcode maps; and the sentinel. -/

namespace Sys2Proof

/-! ### Decode and encode (R91, R97, R98) -/

/-- The encoding of a well-formed instruction is as long as the instruction, and the sentinel's is its one byte. -/
theorem encode_length {c : Config} {i : Instr} (h : i.wf c = true) : (encode c i).length = max 1 i.len := by
  cases i with
  | invalid b => rfl
  | _ => exact assemble_length h ..

/-- Settles O10: what decodes is the encoding itself, and each format assembles as many bytes as its length. -/
theorem decodeEncodeRoundTrip : Obligations.DecodeEncodeRoundTrip := by
  unfold Obligations.DecodeEncodeRoundTrip
  exact fun c i rest h => ⟨decode_encode_append h rest, encode_length h⟩

/-- What byte 0 says of a decoded instruction: it is the sentinel, or of the kind byte 0 selects, with `rd` from its register
field. -/
theorem decode_ok_cons {c : Config} {b0 : Byte} {rest : List Byte} {i : Instr} (h : decode c (b0 :: rest) = .ok i) :
    (c.kindOf b0 = none ∧ i = .invalid b0) ∨
      ∃ k rs imm, c.kindOf b0 = some k ∧ i = k.build (regMap (c.profile.regField b0)) rs imm := by
  rcases decode_cases c (b0 :: rest) with ⟨hb, _⟩ | ⟨_, _, hb, hk, e⟩ | ⟨_, _, _, hb, _, _, e⟩ |
    ⟨_, _, k, hb, hk, _, e⟩ | ⟨_, _, _, k, hb, hk, _, e⟩ | ⟨_, _, _, _, _, _, k, hb, hk, _, e⟩ <;>
    cases hb <;> cases e.symm.trans h
  · exact .inl ⟨hk, rfl⟩
  all_goals exact .inr ⟨k, _, _, hk, rfl⟩

/-- The kind of a decoded instruction is the one byte 0 selects. -/
theorem kind?_of_decode {c : Config} {b0 : Byte} {rest : List Byte} {i : Instr} (h : decode c (b0 :: rest) = .ok i) :
    i.kind? = c.kindOf b0 := by
  rcases decode_ok_cons h with ⟨hk, rfl⟩ | ⟨k, rs, imm, hk, rfl⟩
  · exact hk.symm
  · rw [kind?_build, hk]

theorem len_eq_of_kind?_eq {i j : Instr} (h : i.kind? = j.kind?) : i.len = j.len := by
  simp only [Instr.len, h]

/-- Settles O8: the kind is the one byte 0 selects, and the length follows from the kind. -/
theorem lengthFromByteZero : Obligations.LengthFromByteZero := by
  unfold Obligations.LengthFromByteZero
  intro c b0 rest rest' i j hi hj
  have hkind : i.kind? = j.kind? := (kind?_of_decode hi).trans (kind?_of_decode hj).symm
  exact ⟨len_eq_of_kind?_eq hkind, hkind⟩

/-- Settles O9: in each format the decoder names exactly the bytes it reads. -/
theorem decodeConsumesItsLength : Obligations.DecodeConsumesItsLength := by
  unfold Obligations.DecodeConsumesItsLength
  intro c bytes rest i h hkind
  rcases decode_cases c bytes with ⟨_, e⟩ | ⟨b0, _, _, _, e⟩ | ⟨_, _, _, _, _, _, e⟩ |
    ⟨b0, _, k, rfl, hk, hf, e⟩ | ⟨b0, b1, _, k, rfl, hk, hf, e⟩ | ⟨b0, b1, b2, b3, b4, _, k, rfl, hk, hf, e⟩ <;>
    cases e.symm.trans h
  · exact absurd rfl hkind
  · rw [len_build, hf]
    exact ⟨by simp [Format.len], .inl rfl, decode_R rest hk hf⟩
  · rw [len_build, hf]
    exact ⟨by simp [Format.len], .inr (.inl rfl), decode_RR b1 rest hk hf⟩
  · rw [len_build, hf]
    exact ⟨by simp [Format.len], .inr (.inr rfl), decode_RI b1 b2 b3 b4 rest hk hf⟩

/-! ### The fields of byte 0 and byte 1 (R81 to R84) -/

/-- Byte 0 is its two fields, in both profiles. -/
theorem toNat_eq_fields (p : Profile) (b : Byte) : b.toNat = p.opcodeField b * p.regSpace + p.regField b := by
  rw [opcodeField_eq, regField_eq, Nat.div_add_mod']

/-- Settles O1: quotient and remainder by the number of register field values. -/
theorem byteZeroFields : Obligations.ByteZeroFields := by
  unfold Obligations.ByteZeroFields
  exact ⟨fun b => ⟨opcodeField_eq .p5 b, regField_eq .p5 b, toNat_eq_fields .p5 b⟩,
    fun b => ⟨opcodeField_eq .p4 b, regField_eq .p4 b, toNat_eq_fields .p4 b⟩,
    fun _ _ hopc hrf => byte0_toNat (p := .p5) hopc hrf, fun _ _ hopc hrf => byte0_toNat (p := .p4) hopc hrf⟩

theorem regMap_of_seven_le {v : Nat} (h : 7 ≤ v) : regMap v = .r0 := by
  obtain ⟨n, rfl⟩ := Nat.exists_eq_add_of_le' h
  rfl

/-- In every answer of the decoder `rd` is the register field of byte 0 through the register map. -/
theorem decoderOut_rd (c : Config) (b0 : Byte) (rest : List Byte) :
    (decoderOut c (b0 :: rest)).rd = regMap (c.profile.regField b0) := by
  cases hd : decode c (b0 :: rest) with
  | error e => simp only [decoderOut, hd]
  | ok i =>
    rcases decode_ok_cons hd with ⟨hk, rfl⟩ | ⟨k, rs, imm, hk, rfl⟩
    · rw [decoderOut_invalid rest hk]
    · simp only [decoderOut, hd, kind?_build, fields_build_rd]

/-- In every RR instruction `rs` is the low nibble of byte 1 through the register map. -/
theorem decoderOut_rs {c : Config} {b0 : Byte} {k : Kind} (b1 : Byte) (rest : List Byte) (hk : c.kindOf b0 = some k)
    (hf : k.format = .RR) : (decoderOut c (b0 :: b1 :: rest)).rs = regMap (b1.toNat % 16) := by
  rw [decoderOut_RR b1 rest hk hf, secondField_eq]

/-- Settles O2: the map by its equations, and the two fields in the decoder's answers. -/
theorem registerMap : Obligations.RegisterMap := by
  unfold Obligations.RegisterMap
  exact ⟨rfl, rfl, rfl, rfl, rfl, rfl, rfl, fun _ => regMap_of_seven_le, decoderOut_rd,
    fun _ _ b1 rest _ hk hf => decoderOut_rs b1 rest hk hf⟩

/-- An instruction of an RR kind is encoded from its two registers. -/
theorem encode_of_RR (c : Config) {i : Instr} {k : Kind} (hk : i.kind? = some k) (hf : k.format = .RR) :
    ∃ rd rs, encode c i = c.assembleRR k rd rs := by
  cases i with
  | mov rd rs | add rd rs | sub rd rs | andr rd rs | orr rd rs => cases hk; exact ⟨rd, rs, rfl⟩
  | invalid b => exact nomatch hk
  | _ => cases hk; exact nomatch hf

/-- Byte 1 of an assembled RR instruction has the high nibble 0. -/
theorem assembleRR_high_nibble {c : Config} {k : Kind} {rd rs : Reg} {b0 b1 : Byte} {rest : List Byte}
    (h : c.assembleRR k rd rs = b0 :: b1 :: rest) : b1.toNat / 16 = 0 := by
  unfold Config.assembleRR Config.assemble at h
  split at h
  · exact nomatch h
  · cases h
    cases rs <;> rfl

/-- Settles O3: `rs` is read through the low nibble alone, and register indices are below 16. -/
theorem secondRegisterField : Obligations.SecondRegisterField := by
  unfold Obligations.SecondRegisterField
  refine ⟨fun c b0 b1 rest k hk hf => decoderOut_rs b1 rest hk hf, fun c b0 b1 b1' rest k hk hf hlow => ?_,
    fun c i k b0 b1 rest hk hf he => ?_⟩
  · rw [decode_RR b1 rest hk hf, decode_RR b1' rest hk hf, secondField_eq, secondField_eq, hlow]
  · obtain ⟨rd, rs, hassemble⟩ := encode_of_RR c hk hf
    exact assembleRR_high_nibble (hassemble.symm.trans he)

/-- Settles O4: the assembled word, written with shifts and ors. -/
theorem immediateAssembly : Obligations.ImmediateAssembly := by
  unfold Obligations.ImmediateAssembly
  intro c b0 b1 b2 b3 b4 rest k hk hf
  rw [decoderOut_RI b1 b2 b3 b4 rest hk hf]
  exact leWord_eq_or b1 b2 b3 b4

/-! ### The default opcode maps (R86, R87) -/

/-- Byte 0 of an opcode number and any register field selects the number's entry in the map. -/
theorem kindOf_ofNat (c : Config) {n rf : Nat} (hn : n < c.profile.opcodeSpace) (hrf : rf < c.profile.regSpace) :
    c.kindOf (BitVec.ofNat 8 (n * c.profile.regSpace + rf)) = (c.opmap[n]?).join :=
  congrArg (fun m => (c.opmap[m]?).join) (opcodeField_byte0 hn hrf)

/-- The rows of an opcode table hold if each row's base is a whole opcode number times the number of register field values,
and the map has the row's kind at that number: the register field adds nothing to the number. -/
theorem rows_select {p : Profile} {rows : List (Nat × Kind × Format)}
    (h : ∀ row ∈ rows, row.2.1.format = row.2.2 ∧ p.regSpace ∣ row.1 ∧ row.1 / p.regSpace < p.opcodeSpace ∧
      ((Config.standard p []).opmap[row.1 / p.regSpace]?).join = some row.2.1) :
    ∀ row ∈ rows, row.2.1.format = row.2.2 ∧ ∀ image rf, rf < p.regSpace →
      (Config.standard p image).kindOf (BitVec.ofNat 8 (row.1 + rf)) = some row.2.1 := by
  intro row hrow
  obtain ⟨hformat, hdvd, hlt, hentry⟩ := h row hrow
  refine ⟨hformat, fun image rf hrf => ?_⟩
  calc (Config.standard p image).kindOf (BitVec.ofNat 8 (row.1 + rf))
      = (Config.standard p image).kindOf (BitVec.ofNat 8 (row.1 / p.regSpace * p.regSpace + rf)) := by
        rw [Nat.div_mul_cancel hdvd]
    _ = ((Config.standard p image).opmap[row.1 / p.regSpace]?).join := kindOf_ofNat _ hlt hrf
    _ = some row.2.1 := hentry

/-- A map has no entry past its last kind. -/
theorem join_getElem?_append_replicate_none {α : Type} {l : List (Option α)} {n : Nat} (m : Nat) (h : l.length ≤ n) :
    ((l ++ List.replicate m none)[n]?).join = none := by
  rw [List.getElem?_append_right h, List.getElem?_replicate]
  split <;> rfl

/-- A kind that some byte 0 selects stands in the map. -/
theorem mem_opmap_of_kindOf {c : Config} {b : Byte} {k : Kind} (h : c.kindOf b = some k) : some k ∈ c.opmap :=
  List.mem_of_getElem? (Option.join_eq_some_iff.mp h)

/-- Settles O5: each row is an entry of the map, and the map has 17 kinds. -/
theorem opcodeTableP5 : Obligations.OpcodeTableP5 := by
  unfold Obligations.OpcodeTableP5
  refine ⟨rows_select (p := .p5) (by decide), fun image b hb => ?_⟩
  have hfield : 17 ≤ Profile.p5.opcodeField b := by
    rw [opcodeField_eq, regSpace_p5]
    omega
  exact join_getElem?_append_replicate_none 15 hfield

/-- Settles O6: each row is an entry of the map, the map has 14 kinds, and JE, JL and ST are not among them. -/
theorem opcodeTableP4 : Obligations.OpcodeTableP4 := by
  unfold Obligations.OpcodeTableP4
  refine ⟨rows_select (p := .p4) (by decide), fun image b hb => ?_, fun _ _ h => ?_, fun _ _ h => ?_, fun _ _ h => ?_⟩
  · have hfield : 14 ≤ Profile.p4.opcodeField b := by
      rw [opcodeField_eq, regSpace_p4]
      omega
    exact join_getElem?_append_replicate_none 2 hfield
  · exact absurd (mem_opmap_of_kindOf h) (by decide : some .je ∉ defaultOpmapP4)
  · exact absurd (mem_opmap_of_kindOf h) (by decide : some .jl ∉ defaultOpmapP4)
  · exact absurd (mem_opmap_of_kindOf h) (by decide : some .st ∉ defaultOpmapP4)

/-- Settles O11: the decoder evaluated on each word. -/
theorem writtenOutWords : Obligations.WrittenOutWords := by
  unfold Obligations.WrittenOutWords
  decide

/-! ### `Decode(pc)` (R90) -/

/-- The decoder's answer where the kind's bytes are all there: each operand of the format from its bytes, 0 for the rest. -/
theorem decoderOut_of_bytes {c : Config} {k : Kind} (byte : Nat → Byte) (rest : List Byte)
    (hk : c.kindOf (byte 0) = some k) : decoderOut c ((List.range k.format.len).map byte ++ rest) =
      ⟨some k, regMap (c.profile.regField (byte 0)), (if k.format = .RR then regMap ((byte 1).toNat % 16) else .r0),
        (if k.format = .RI then leWord (byte 1) (byte 2) (byte 3) (byte 4) else 0), k.format.len, .none⟩ := by
  cases hf : k.format with
  | R => exact (decoderOut_R rest hk hf).trans (by rw [hf]; rfl)
  | RR => exact (decoderOut_RR (byte 1) rest hk hf).trans (by rw [hf, secondField_eq]; rfl)
  | RI => exact (decoderOut_RI (byte 1) (byte 2) (byte 3) (byte 4) rest hk hf).trans (by rw [hf]; rfl)

namespace Machine

/-- At or past the end of the program there is no byte to decode. -/
theorem fetchBytes_nil {s : State} (h : s.cfg.progEnd ≤ (s.x .ip).toNat) : fetchBytes s = [] := by
  rw [← List.length_eq_zero_iff, fetchBytes_length, State.avail, Nat.sub_eq_zero_of_le h]
  rfl

/-- The first `n` bytes presented are those of RAM at the pointer, where all `n` lie below the end of the program. -/
theorem fetchBytes_eq_range {s : State} {n : Nat} (hn : n ≤ 5) (hend : (s.x .ip).toNat + n ≤ s.cfg.progEnd) :
    ∃ rest, fetchBytes s = (List.range n).map (fun k => fetchByte s ((s.x .ip).toNat + k)) ++ rest :=
  fetchBytes_eq_append (by simpa using hn) (by simpa using hend) (by simp)

/-- Settles O7: what is fetched at the pointer in each case, and the decoder's answer to it. -/
theorem decodeOfState : Obligations.DecodeOfState := by
  unfold Obligations.DecodeOfState
  rintro s _ _ _ rfl rfl rfl
  refine ⟨fun hend => ?_, fun hlt hk => ?_, fun k hlt hk hcut => ?_, fun k hk hend => ?_⟩
  · rw [fetchBytes_nil hend, decoderOut_nil]
  · obtain ⟨rest, hrest⟩ := fetchBytes_cons hlt
    rw [hrest, decoderOut_invalid rest hk]
  · obtain ⟨rest, hrest⟩ := fetchBytes_cons hlt
    have hlen : (fetchBytes s).length < k.format.len := by
      rw [fetchBytes_length, State.avail]
      omega
    rw [hrest] at hlen ⊢
    exact decoderOut_truncated rest hk hlen
  · obtain ⟨rest, hrest⟩ := fetchBytes_eq_range (format_len_le_five k) hend
    rw [hrest]
    exact decoderOut_of_bytes (fun j => fetchByte s ((s.x .ip).toNat + j)) rest hk

/-! ### What a meaning does not see (R87, R94), and the sentinel (R88) -/

/-- No instruction reads the profile or the opcode maps. -/
theorem recoded_unseen (p : Profile) (m5 m4 : List (Option Kind)) : Unseen fun s => s.recoded p m5 m4 where
  x s r := recoded_x s p m5 m4 r
  array s g := recoded_array s p m5 m4 g
  translate s a := recoded_translateAddr s p m5 m4 a
  setX s r v := recoded_setX s p m5 m4 r v
  setArray s g m := recoded_setArray s p m5 m4 g m

theorem recoded_raise (s : State) (p : Profile) (m5 m4 : List (Option Kind)) (f : Cause) :
    (s.recoded p m5 m4).raise f = (s.raise f).recoded p m5 m4 := rfl

/-- Settles O48: the profile and the maps are unseen by instructions, and a fault entry keeps them. -/
theorem meaningIndependentOfProfile : Obligations.MeaningIndependentOfProfile := by
  unfold Obligations.MeaningIndependentOfProfile
  intro i s t p m5 m4 h
  rcases (recoded_unseen p m5 m4).exec_next h with ⟨_, _, e⟩ | ⟨f, _, rfl, e⟩
  · exact e
  · rw [e, recoded_raise]

/-- Settles O26: the sentinel's meaning is the fault entry. -/
theorem invalidByteFaults : Obligations.InvalidByteFaults := by
  unfold Obligations.InvalidByteFaults
  exact fun s b => ⟨_, exec_invalid b s, faultEntered_raise s .invalidOpcode⟩

end Machine

end Sys2Proof
end

section
/-! PROOFS. The moves (`40_move.md`): the encodings of the RI and RR formats under the default opcode maps, said once for every
kind, and MOVI and MOV. -/

namespace Sys2Proof.Machine

/-! ### Encodings under the default opcode maps (`30_encoding.md` R81 to R87) -/

/-- Byte 0 of a kind's opcode number and any register field selects the kind and gives the register field back. -/
theorem standard_byte0 {p : Profile} {k : Kind} {n rf : Nat} (h : (Config.standard p []).opcodeOf k = some n)
    (image : List Byte) (hrf : rf < p.regSpace) :
    (Config.standard p image).kindOf (BitVec.ofNat 8 (n * p.regSpace + rf)) = some k ∧
      (Config.standard p image).profile.regField (BitVec.ofNat 8 (n * p.regSpace + rf)) = rf := by
  obtain ⟨hn, hentry⟩ := opcodeOf_spec h
  exact ⟨(kindOf_ofNat (Config.standard p image) hn hrf).trans hentry, regField_byte0 hn hrf⟩

/-- The second register field of a byte 1 is its low nibble. -/
theorem secondField_ofNat {sf : Nat} (high : Nat) (hsf : sf < 16) :
    secondField (BitVec.ofNat 8 (16 * high + sf)) = sf := by
  rw [secondField_eq, BitVec.toNat_ofNat]
  omega

/-- An RI kind is encoded with its opcode number times the number of register field values as the base of byte 0. -/
theorem encodesRI_of_opcodeOf {p : Profile} {k : Kind} {n : Nat} (h : (Config.standard p []).opcodeOf k = some n)
    (hf : k.format = .RI) : EncodesRI p (n * p.regSpace) fun rd imm => k.build rd .r0 imm := by
  intro image rf imm rest hrf
  obtain ⟨hkind, hfield⟩ := standard_byte0 h image hrf
  rw [decode_RI _ _ _ _ rest hkind hf, hfield, leWord_byteOf]

/-- An RR kind is encoded with its opcode number times the number of register field values as the base of byte 0. -/
theorem encodesRR_of_opcodeOf {p : Profile} {k : Kind} {n : Nat} (h : (Config.standard p []).opcodeOf k = some n)
    (hf : k.format = .RR) : EncodesRR p (n * p.regSpace) fun rd rs => k.build rd rs 0 := by
  intro image rf sf high rest hrf hsf _
  obtain ⟨hkind, hfield⟩ := standard_byte0 h image hrf
  rw [decode_RR _ rest hkind hf, hfield, secondField_ofNat high hsf]

/-! ### MOVI and MOV (R110, R111) -/

/-- Settles O13: opcode number 0 in both profiles; the result is the immediate. -/
theorem moveImmediate : Obligations.MoveImmediate := by
  unfold Obligations.MoveImmediate
  exact ⟨encodesRI_of_opcodeOf (k := .movi) (n := 0) (by decide) rfl,
    encodesRI_of_opcodeOf (k := .movi) (n := 0) (by decide) rfl,
    fun s rd imm => ⟨_, exec_movi rd imm s, resultIn_setX_advance s rd imm 5⟩⟩

/-- Settles O14: opcode number 1 in both profiles; the result is the source register as it was. -/
theorem moveRegister : Obligations.MoveRegister := by
  unfold Obligations.MoveRegister
  exact ⟨encodesRR_of_opcodeOf (k := .mov) (n := 1) (by decide) rfl,
    encodesRR_of_opcodeOf (k := .mov) (n := 1) (by decide) rfl,
    fun s rd rs => ⟨_, exec_mov rd rs s, resultIn_setX_advance s rd (s.x rs) 2⟩⟩

end Sys2Proof.Machine
end

section
/-! PROOFS. The jumps (`41_jump.md`): the encoding of the R format under the default opcode maps, said once for every kind,
the two arms of a conditional jump, and JE, JL and JEZ. -/

namespace Sys2Proof.Machine

/-- An R kind is encoded with its opcode number times the number of register field values as the base of byte 0. -/
theorem encodesR_of_opcodeOf {p : Profile} {k : Kind} {n : Nat} (h : (Config.standard p []).opcodeOf k = some n)
    (hf : k.format = .R) : EncodesR p (n * p.regSpace) fun rd => k.build rd .r0 0 := by
  intro image rf rest hrf
  obtain ⟨hkind, hfield⟩ := standard_byte0 h image hrf
  rw [decode_R rest hkind hf, hfield]

/-! ### A conditional jump: to the target, or on to the next instruction -/

theorem pointerAt_jump_taken (s : State) {p : Prop} [Decidable p] (h : p) (target : Word) (len : Nat) :
    PointerAt s (if p then s.setX .ip target else s.advance len) target := by
  rw [if_pos h]
  exact pointerAt_setX s target

theorem pointerAt_jump_not_taken (s : State) {p : Prop} [Decidable p] (h : ¬ p) (target : Word) (len : Nat) :
    PointerAt s (if p then s.setX .ip target else s.advance len) (s.x .ip + BitVec.ofNat 32 len) := by
  rw [if_neg h]
  exact pointerAt_advance s len

/-! ### JE, JL and JEZ (R120 to R122) -/

/-- Settles O15: opcode number 2 in P5, none in P4; `fl` equals itself, so JE `fl` takes the jump. -/
theorem jumpIfEqual : Obligations.JumpIfEqual := by
  unfold Obligations.JumpIfEqual
  obtain ⟨_, _, hnotP4, _, _⟩ := opcodeTableP4
  refine ⟨encodesRI_of_opcodeOf (k := .je) (n := 2) (by decide) rfl, hnotP4, fun s rd imm => ?_, fun s imm => ?_⟩
  · exact ⟨_, exec_je rd imm s, fun heq => pointerAt_jump_taken s heq imm 5,
      fun hne => pointerAt_jump_not_taken s hne imm 5⟩
  · exact ⟨_, exec_je .fl imm s, pointerAt_jump_taken s rfl imm 5⟩

/-- Settles O16: opcode number 3 in P5, none in P4; `fl` is not less than itself, so JL `fl` never takes the jump. -/
theorem jumpIfLess : Obligations.JumpIfLess := by
  unfold Obligations.JumpIfLess
  obtain ⟨_, _, _, hnotP4, _⟩ := opcodeTableP4
  refine ⟨encodesRI_of_opcodeOf (k := .jl) (n := 3) (by decide) rfl, hnotP4, fun s rd imm => ?_, fun s imm => ?_⟩
  · exact ⟨_, exec_jl rd imm s, fun hlt => pointerAt_jump_taken s hlt imm 5,
      fun hle => pointerAt_jump_not_taken s (Nat.not_lt.mpr hle) imm 5⟩
  · exact ⟨_, exec_jl .fl imm s, pointerAt_jump_not_taken s (Nat.lt_irrefl _) imm 5⟩

/-- Settles O17: opcode number 16 in P5 and 2 in P4; the target is `fl`. -/
theorem jumpIfZero : Obligations.JumpIfZero := by
  unfold Obligations.JumpIfZero
  refine ⟨encodesR_of_opcodeOf (k := .jez) (n := 16) (by decide) rfl,
    encodesR_of_opcodeOf (k := .jez) (n := 2) (by decide) rfl, fun s rd => ?_⟩
  exact ⟨_, exec_jez rd s, fun hzero => pointerAt_jump_taken s hzero (s.x .fl) 1,
    fun hne => pointerAt_jump_not_taken s hne (s.x .fl) 1⟩

end Sys2Proof.Machine
end

section
/-! PROOFS. The arithmetic and logic instructions (`42_alu.md`): the subtraction of words as one of integers, the complement as
a subtraction, and the five operations with their encodings. -/

namespace Sys2Proof.Machine

/-! ### Words as numbers (R140, R139) -/

/-- A difference of words is the difference of the integers modulo 2^32. -/
theorem toNat_sub_eq_emod (a b : Word) : ((a - b).toNat : Int) = (a.toNat - b.toNat : Int) % 2 ^ 32 := by
  rw [BitVec.toNat_sub]
  omega

/-- The complement is 0xFFFFFFFF minus the value. -/
theorem not_eq_sub (a : Word) : ~~~a = 0xFFFFFFFF - a := (BitVec.allOnes_sub_eq_not a).symm

/-- The complement plus one, where NOT `ip` continues, is 0 minus the value. -/
theorem not_add_one_eq_sub (a : Word) : ~~~a + 1 = 0 - a :=
  (BitVec.neg_eq_not_add a).symm.trans (BitVec.zero_sub a).symm

/-! ### ADDI and ADD, SUBI and SUB (R131 to R134) -/

/-- Settles O18: opcode numbers 4 and 5 in P5, 3 and 4 in P4; the result is the sum of the words. -/
theorem addForms : Obligations.AddForms := by
  unfold Obligations.AddForms
  refine ⟨encodesRI_of_opcodeOf (k := .addi) (n := 4) (by decide) rfl,
    encodesRI_of_opcodeOf (k := .addi) (n := 3) (by decide) rfl,
    encodesRR_of_opcodeOf (k := .add) (n := 5) (by decide) rfl,
    encodesRR_of_opcodeOf (k := .add) (n := 4) (by decide) rfl, fun s rd imm => ?_, fun s rd rs => ?_⟩
  · exact ⟨_, _, exec_addi rd imm s, resultIn_setX_advance s rd _ 5, BitVec.toNat_add ..⟩
  · exact ⟨_, _, exec_add rd rs s, resultIn_setX_advance s rd _ 2, BitVec.toNat_add ..⟩

/-- Settles O19: opcode numbers 6 and 7 in P5, 5 and 6 in P4; the result is the register minus the operand. -/
theorem subtractForms : Obligations.SubtractForms := by
  unfold Obligations.SubtractForms
  refine ⟨encodesRI_of_opcodeOf (k := .subi) (n := 6) (by decide) rfl,
    encodesRI_of_opcodeOf (k := .subi) (n := 5) (by decide) rfl,
    encodesRR_of_opcodeOf (k := .sub) (n := 7) (by decide) rfl,
    encodesRR_of_opcodeOf (k := .sub) (n := 6) (by decide) rfl, fun s rd imm => ?_, fun s rd rs => ?_⟩
  · exact ⟨_, _, exec_subi rd imm s, resultIn_setX_advance s rd _ 5, toNat_sub_eq_emod ..⟩
  · exact ⟨_, _, exec_sub rd rs s, resultIn_setX_advance s rd _ 2, toNat_sub_eq_emod ..⟩

/-! ### ANDI and AND, ORI and OR (R135 to R138) -/

/-- Settles O20: opcode numbers 8 and 9 in P5, 7 and 8 in P4; the result is the bitwise and. -/
theorem andForms : Obligations.AndForms := by
  unfold Obligations.AndForms
  refine ⟨encodesRI_of_opcodeOf (k := .andi) (n := 8) (by decide) rfl,
    encodesRI_of_opcodeOf (k := .andi) (n := 7) (by decide) rfl,
    encodesRR_of_opcodeOf (k := .andr) (n := 9) (by decide) rfl,
    encodesRR_of_opcodeOf (k := .andr) (n := 8) (by decide) rfl, fun s rd imm => ?_, fun s rd rs => ?_⟩
  · exact ⟨_, _, exec_andi rd imm s, resultIn_setX_advance s rd _ 5, fun _ => BitVec.getLsbD_and⟩
  · exact ⟨_, _, exec_andr rd rs s, resultIn_setX_advance s rd _ 2, fun _ => BitVec.getLsbD_and⟩

/-- Settles O21: opcode numbers 10 and 11 in P5, 9 and 10 in P4; the result is the bitwise or. -/
theorem orForms : Obligations.OrForms := by
  unfold Obligations.OrForms
  refine ⟨encodesRI_of_opcodeOf (k := .ori) (n := 10) (by decide) rfl,
    encodesRI_of_opcodeOf (k := .ori) (n := 9) (by decide) rfl,
    encodesRR_of_opcodeOf (k := .orr) (n := 11) (by decide) rfl,
    encodesRR_of_opcodeOf (k := .orr) (n := 10) (by decide) rfl, fun s rd imm => ?_, fun s rd rs => ?_⟩
  · exact ⟨_, _, exec_ori rd imm s, resultIn_setX_advance s rd _ 5, fun _ => BitVec.getLsbD_or⟩
  · exact ⟨_, _, exec_orr rd rs s, resultIn_setX_advance s rd _ 2, fun _ => BitVec.getLsbD_or⟩

/-! ### NOT (R139) -/

/-- Settles O22: opcode number 12 in P5 and 11 in P4; after NOT `ip` the advance by one turns the complement of the pointer
into its negation. -/
theorem complement : Obligations.Complement := by
  unfold Obligations.Complement
  refine ⟨encodesR_of_opcodeOf (k := .notr) (n := 12) (by decide) rfl,
    encodesR_of_opcodeOf (k := .notr) (n := 11) (by decide) rfl, fun s rd => ?_, fun s => ?_⟩
  · exact ⟨_, _, exec_notr rd s, resultIn_setX_advance s rd _ 1, fun k hk => by simp [hk], not_eq_sub (s.x rd)⟩
  · refine ⟨_, exec_notr .ip s, ?_⟩
    rw [advance_ip, x_setX_self]
    exact not_add_one_eq_sub (s.x .ip)

end Sys2Proof.Machine
end

section
/-! PROOFS. The load and the two stores (`43_load_store.md`): each accesses the word where its address translates, and enters
the BoundsViolation fault where it does not. -/

namespace Sys2Proof.Machine

/-! ### LD, ST and STF (R150 to R152) -/

/-- Settles O23: opcode number 13 in P5 and 12 in P4; the word read, its four bytes put together, is the result. -/
theorem loadWord : Obligations.LoadWord := by
  unfold Obligations.LoadWord
  refine ⟨encodesRI_of_opcodeOf (k := .ld) (n := 13) (by decide) rfl,
    encodesRI_of_opcodeOf (k := .ld) (n := 12) (by decide) rfl, fun s rd imm g off ht => ?_, fun s rd imm ht => ?_⟩
  · exact ⟨_, exec_ld_some ht, resultIn_setX_advance s rd _ 5⟩
  · exact ⟨_, exec_ld_none ht, faultEntered_raise s .boundsViolation⟩

/-- Settles O24: opcode number 14 in P5, none in P4; the address is the immediate itself. -/
theorem storeWord : Obligations.StoreWord := by
  unfold Obligations.StoreWord
  obtain ⟨_, _, _, _, hnotP4⟩ := opcodeTableP4
  refine ⟨encodesRI_of_opcodeOf (k := .st) (n := 14) (by decide) rfl, hnotP4, fun s rd imm g off ht => ?_,
    fun s rd imm ht => ?_⟩
  · exact ⟨_, exec_st_some ht, storedWord_setArray_advance s g off (s.x rd) 5⟩
  · exact ⟨_, exec_st_none ht, faultEntered_raise s .boundsViolation⟩

/-- Settles O25: opcode number 15 in P5 and 13 in P4; the address is `fl` and the word stored `x[rd]`, both as they were
before the store. -/
theorem storeThroughFlag : Obligations.StoreThroughFlag := by
  unfold Obligations.StoreThroughFlag
  refine ⟨encodesR_of_opcodeOf (k := .stf) (n := 15) (by decide) rfl,
    encodesR_of_opcodeOf (k := .stf) (n := 13) (by decide) rfl, fun s rd g off ht => ?_, fun s rd ht => ?_, fun _ => rfl⟩
  · exact ⟨_, exec_stf_some ht, storedWord_setArray_advance s g off (s.x rd) 1⟩
  · exact ⟨_, exec_stf_none ht, faultEntered_raise s .boundsViolation⟩

end Sys2Proof.Machine
end

section
/-! PROOFS. The step and its blocks (`45_step_and_blocks.md`): the ALU engine; which instruction a step runs, from the decoder,
from an encoding in RAM and from a word of the opcode table; the normal halt; and that every step completes. -/

namespace Sys2Proof.Machine

/-! ### The ALU engine (R177) -/

theorem cmpEq_iff (a b : Word) : cmpEq a b = true ↔ a = b := beq_iff_eq

theorem cmpLtU_iff (a b : Word) : cmpLtU a b = true ↔ a.toNat < b.toNat := decide_eq_true_iff

/-- Settles O27: each operation is the word operation of its row, each decision the comparison of its row. -/
theorem aluEngineTable : Obligations.AluEngineTable := by
  unfold Obligations.AluEngineTable
  exact fun a b => ⟨rfl, rfl, BitVec.toNat_add .., rfl, toNat_sub_eq_emod a b, rfl, fun _ => BitVec.getLsbD_and, rfl,
    fun _ => BitVec.getLsbD_or, rfl, fun k hk => by simp [aluEngine, hk], rfl, cmpEq_iff a b, cmpLtU_iff a b⟩

/-! ### What a step runs, and where it halts (R170) -/

/-- Settles O36: the step's last outcome. -/
theorem stepRunsDecoded : Obligations.StepRunsDecoded := by
  unfold Obligations.StepRunsDecoded
  exact fun _ _ hrun hlt hc hd => step_decoded hrun hlt hc hd

/-- No encoding is longer than the five bytes the decoder is given. -/
theorem encode_length_le_five {c : Config} {i : Instr} (h : i.wf c = true) : (encode c i).length ≤ 5 := by
  rw [encode_length h]
  exact max_le (by decide) (len_le_five i)

/-- Settles O37: the bytes presented at the pointer begin with the encoding, which decodes to its instruction. -/
theorem stepRunsEncoded : Obligations.StepRunsEncoded := by
  unfold Obligations.StepRunsEncoded
  exact fun _ _ hrun hwf hc hend hbytes => step_encoded hrun hc hwf (encode_length_le_five hwf) hend hbytes

/-- Settles O38: the normal halt sets `run` alone. -/
theorem endOfProgramHalts : Obligations.EndOfProgramHalts := by
  unfold Obligations.EndOfProgramHalts
  exact fun s hrun hc hend => ⟨_, step_atEnd hrun hc hend, rfl, rfl, rfl, rfl, fun g a => by rw [haltNormally_array]⟩

/-! ### Every step completes, but for the model's two stops -/

theorem exec_completes (i : Instr) (s : State) : ∃ t, exec i s = .next t := by
  rcases exec_cases i s with ⟨_, _, _, _, _, e⟩ | ⟨_, _, _, _, e⟩ | ⟨_, _, _, _, _, _, _, _, e⟩ | ⟨_, _, _, e⟩ |
    ⟨_, _, e⟩ <;> exact ⟨_, e⟩

/-- Every step completes, or stops under parameters that are not `Config.Runnable`. -/
theorem step_completes_or_stops (s : State) :
    (∃ t, step s = .next t) ∨
    (s.run = .running ∧ ¬ s.cfg.Described ∧ step s = .fault .registersNotDescribed) ∨
    (s.run = .running ∧ s.cfg.Described ∧ (s.x .ip).toNat < s.cfg.progEnd ∧ s.cfg.memSize < s.cfg.progEnd ∧
      step s = .fault .imageOutsideRam) := by
  rcases step_cases s with ⟨_, e⟩ | hregs | ⟨_, _, _, e⟩ | himage | ⟨_, _, _, _, e⟩ | ⟨i, _, _, _, _, e⟩
  · exact .inl ⟨_, e⟩
  · exact .inr (.inl hregs)
  · exact .inl ⟨_, e⟩
  · exact .inr (.inr himage)
  · exact .inl ⟨_, e⟩
  · exact .inl (e ▸ exec_completes i s)

theorem step_completes {s : State} (hc : s.cfg.Runnable) : ∃ t, step s = .next t := by
  rcases step_completes_or_stops s with hnext | ⟨_, hregs, _⟩ | ⟨_, _, _, hmem, _⟩
  · exact hnext
  · exact absurd hc.1 hregs
  · exact absurd hc.2 (Nat.not_le.mpr hmem)

theorem step_imageOutsideRam_iff (s : State) : step s = .fault .imageOutsideRam ↔
    s.run = .running ∧ s.cfg.Described ∧ (s.x .ip).toNat < s.cfg.progEnd ∧ s.cfg.memSize < s.cfg.progEnd := by
  refine ⟨fun h => ?_, fun ⟨hrun, hc, hlt, hmem⟩ => step_imageOutsideRam hrun hc hlt hmem⟩
  rcases step_completes_or_stops s with ⟨_, e⟩ | ⟨_, _, e⟩ | ⟨hrun, hc, hlt, hmem, _⟩
  · exact nomatch e.symm.trans h
  · exact nomatch e.symm.trans h
  · exact ⟨hrun, hc, hlt, hmem⟩

theorem step_registersNotDescribed_iff (s : State) :
    step s = .fault .registersNotDescribed ↔ s.run = .running ∧ ¬ s.cfg.Described := by
  refine ⟨fun h => ?_, fun ⟨hrun, hc⟩ => step_registersNotDescribed hrun hc⟩
  rcases step_completes_or_stops s with ⟨_, e⟩ | ⟨hrun, hc, _⟩ | ⟨_, _, _, _, e⟩
  · exact nomatch e.symm.trans h
  · exact ⟨hrun, hc⟩
  · exact nomatch e.symm.trans h

/-- Settles O50: of a step's outcomes only two are stops, and each names the parameters it is raised under. -/
theorem everyStepCompletes : Obligations.EveryStepCompletes := by
  unfold Obligations.EveryStepCompletes
  exact ⟨exec_completes, fun _ => step_completes, step_imageOutsideRam_iff, step_registersNotDescribed_iff⟩

/-! ### A table word placed where the step fetches -/

/-- Writing bytes one after another from `a + j` up leaves the addresses below alone. -/
theorem read_foldl_write_low (m : Memory) (a : Nat) {b j : Nat} (bytes : List Byte) (h : b < a + j) :
    ((bytes.zipIdx j).foldl (fun m p => m.write (a + p.2) p.1) m).read b = m.read b := by
  induction bytes generalizing m j with
  | nil => rfl
  | cons v bytes ih =>
    rw [List.zipIdx_cons, List.foldl_cons, ih _ (by omega), read_write_ne _ _ (by omega)]

/-- Writing bytes one after another from `a + j` up puts byte `k` at `a + (j + k)`. -/
theorem read_foldl_write (m : Memory) (a j : Nat) (bytes : List Byte) {k : Nat} (h : k < bytes.length) :
    ((bytes.zipIdx j).foldl (fun m p => m.write (a + p.2) p.1) m).read (a + (j + k)) = bytes[k] := by
  induction bytes generalizing m j k with
  | nil => exact absurd h (Nat.not_lt_zero k)
  | cons v bytes ih =>
    rw [List.zipIdx_cons, List.foldl_cons]
    cases k with
    | zero =>
      rw [read_foldl_write_low _ _ _ (by omega)]
      exact read_write_self ..
    | succ k =>
      rw [List.getElem_cons_succ, ← ih (m.write (a + j) v) (j + 1) (Nat.lt_of_succ_lt_succ h), Nat.succ_add_eq_add_succ]

@[simp] theorem tableBytes_length (nbits w : Nat) : (tableBytes nbits w).length = 5 := rfl

@[simp] theorem withFetchWord_x (s : State) (nbits w : Nat) (r : Reg) : (s.withFetchWord nbits w).x r = s.x r := by
  cases r <;> rfl

/-- The bytes fetched at the pointer are those of the word. -/
theorem fetchByte_withFetchWord (s : State) (nbits w : Nat) {k : Nat} (h : k < (tableBytes nbits w).length) :
    fetchByte (s.withFetchWord nbits w) ((s.x .ip).toNat + k) = (tableBytes nbits w)[k] := by
  have hread := read_foldl_write s.ram (s.x .ip).toNat 0 (tableBytes nbits w) h
  rwa [Nat.zero_add] at hread

theorem tableConfig_progEnd (c : Config) (nbits w pc : Nat) (ram : Memory) :
    (tableConfig c nbits w pc ram).progEnd = c.rBytes + max c.progLen (pc + 5 - c.rBytes) := by
  simp [Config.progEnd, Config.progLen, tableConfig]

/-- The image reaches past the five bytes of the word. -/
theorem ip_add_five_le_progEnd_withFetchWord (s : State) (nbits w : Nat) :
    (s.x .ip).toNat + 5 ≤ (s.withFetchWord nbits w).cfg.progEnd := by
  refine Nat.le_trans ?_ (Nat.le_of_eq (tableConfig_progEnd ..).symm)
  omega

theorem withFetchWord_runnable (s : State) (nbits w : Nat) : (s.withFetchWord nbits w).cfg.Runnable :=
  ⟨⟨rfl, rfl⟩, Nat.le_trans (Nat.le_of_eq (tableConfig_progEnd ..)) (Nat.le_max_right ..)⟩

/-- The decoder reads the profile and the opcode map of the parameters, and no more of them. -/
theorem decode_withFetchWord (s : State) (nbits w : Nat) (bytes : List Byte) :
    decode (s.withFetchWord nbits w).cfg bytes = decode (Config.standard (tableProfile nbits w) []) bytes := rfl

theorem decode_of_decodeTableWord {nbits w : Nat} {i : Instr} (h : decodeTableWord nbits w = some i) :
    decode (Config.standard (tableProfile nbits w) []) (tableBytes nbits w) = .ok i := by
  unfold decodeTableWord at h
  split at h
  · next hd => rw [hd, Option.some.inj h]
  · exact nomatch h

/-- At the placed word the decoder is given exactly the word's five bytes. -/
theorem fetchBytes_withFetchWord (s : State) (nbits w : Nat) :
    fetchBytes (s.withFetchWord nbits w) = tableBytes nbits w := by
  have hend := ip_add_five_le_progEnd_withFetchWord s nbits w
  apply List.ext_getElem
  · rw [fetchBytes_length, State.avail, withFetchWord_x, tableBytes_length]
    omega
  · intro k hk hk'
    rw [fetchBytes_getElem, withFetchWord_x, fetchByte_withFetchWord s nbits w hk']

/-- Settles O12: the decoder of the step is given the word's bytes, under the profile and the map the word is read in. -/
theorem tableWordRuns : Obligations.TableWordRuns := by
  unfold Obligations.TableWordRuns
  intro s nbits w i h
  have hend := ip_add_five_le_progEnd_withFetchWord s nbits w
  refine step_decoded rfl (by rw [withFetchWord_x]; omega) (withFetchWord_runnable s nbits w) ?_
  rw [decodeAt, fetchBytes_withFetchWord, decode_withFetchWord, decode_of_decodeTableWord h]

end Sys2Proof.Machine
end

section
/-! PROOFS. The exceptions (`60_exceptions.md`): when the decoder truncates, which fault an instruction raises and when, and that
a fault entry changes nothing else. -/

namespace Sys2Proof

/-! ### The faults of the decoder (R202, R203) -/

/-- A byte that selects a kind decodes to TruncatedOperand exactly when there are fewer bytes than the format has. -/
theorem decode_truncated_iff {c : Config} {b0 : Byte} {k : Kind} (rest : List Byte) (hk : c.kindOf b0 = some k) :
    decode c (b0 :: rest) = .error .truncatedOperand ↔ (b0 :: rest).length < k.format.len := by
  refine ⟨fun h => ?_, decode_truncated rest hk⟩
  rcases decode_cases c (b0 :: rest) with ⟨hnil, _⟩ | ⟨_, _, _, _, e⟩ | ⟨_, _, k', hb, hk', hlen, _⟩ |
    ⟨_, _, _, _, _, _, e⟩ | ⟨_, _, _, _, _, _, _, e⟩ | ⟨_, _, _, _, _, _, _, _, _, _, e⟩
  · exact nomatch hnil
  · exact nomatch e.symm.trans h
  · cases hb
    cases hk.symm.trans hk'
    exact hlen
  · exact nomatch e.symm.trans h
  · exact nomatch e.symm.trans h
  · exact nomatch e.symm.trans h

namespace Machine

theorem decodeAt_invalid {s : State} (hlt : (s.x .ip).toNat < s.cfg.progEnd)
    (hk : s.cfg.kindOf (fetchByte s (s.x .ip).toNat) = none) :
    decodeAt s = .ok (.invalid (fetchByte s (s.x .ip).toNat)) := by
  obtain ⟨rest, hrest⟩ := fetchBytes_cons hlt
  rw [decodeAt, hrest, decode_invalid rest hk]

/-- At a byte that selects a kind, decoding fails exactly when the kind's format reaches past the end of the program. -/
theorem decodeAt_truncated_iff {s : State} {k : Kind} (hlt : (s.x .ip).toNat < s.cfg.progEnd)
    (hk : s.cfg.kindOf (fetchByte s (s.x .ip).toNat) = some k) :
    decodeAt s = .error .truncatedOperand ↔ s.cfg.progEnd < (s.x .ip).toNat + k.format.len := by
  obtain ⟨rest, hrest⟩ := fetchBytes_cons hlt
  rw [decodeAt, hrest, decode_truncated_iff rest hk, ← hrest, fetchBytes_length, State.avail]
  have hlen := format_len_le_five k
  omega

/-- Settles O39: the byte decodes to the sentinel, whose meaning is the fault entry. -/
theorem invalidOpcodeHalts : Obligations.InvalidOpcodeHalts := by
  unfold Obligations.InvalidOpcodeHalts
  intro s hrun hlt hc hk
  have hstep := step_decoded hrun hlt hc (decodeAt_invalid hlt hk)
  exact ⟨_, hstep.trans (exec_invalid _ s), faultEntered_raise s .invalidOpcode⟩

/-- Settles O40: the bytes left before the end of the program are at least one and fewer than the format's length. -/
theorem truncatedOperandHalts : Obligations.TruncatedOperandHalts := by
  unfold Obligations.TruncatedOperandHalts
  intro s k hrun hlt hc hk
  refine ⟨fun hcut => ?_, fun hd => ?_⟩
  · exact ⟨_, step_decodeError hrun hlt hc ((decodeAt_truncated_iff hlt hk).mpr hcut),
      faultEntered_raise s .truncatedOperand⟩
  · have hcut := (decodeAt_truncated_iff hlt hk).mp hd
    cases hf : k.format <;> rw [hf, Format.len] at hcut
    case R => omega
    case RR => exact .inl ⟨rfl, by omega⟩
    case RI => exact .inr ⟨rfl, by omega⟩

/-! ### The faults of an instruction (R204), and fault entry (R206) -/

/-- An instruction that completes keeps `cause`, and its access, if it makes one, translates; or it enters BoundsViolation for
an access that does not translate; or it is the sentinel. -/
theorem exec_cause_cases {i : Instr} {s t : State} (h : exec i s = .next t) :
    (t.cause = s.cause ∧ ∀ a, dataAddress s i = some a → translateAddr s.cfg a ≠ none) ∨
    (∃ a, dataAddress s i = some a ∧ translateAddr s.cfg a = none ∧ t = s.raise .boundsViolation) ∨
    (∃ b, i = .invalid b ∧ t = s.raise .invalidOpcode) := by
  rcases exec_cases i s with ⟨rd, v, _, _, ht, e⟩ | ⟨target, _, hno, _, e⟩ | ⟨a, v, g, off, _, ha, _, ht, e⟩ |
    ⟨a, ha, ht, e⟩ | ⟨b, hb, e⟩ <;> cases e.symm.trans h
  · exact .inl ⟨by simp, ht⟩
  · exact .inl ⟨by simp, fun a ha => nomatch hno.symm.trans ha⟩
  · refine .inl ⟨by simp, fun a' ha' => ?_⟩
    cases ha.symm.trans ha'
    exact fun hnone => nomatch ht.symm.trans hnone
  · exact .inr (.inl ⟨a, ha, ht, rfl⟩)
  · exact .inr (.inr ⟨b, hb, rfl⟩)

/-- From cause NONE an instruction ends with BoundsViolation exactly if it makes an access that does not translate. -/
theorem exec_boundsViolation_iff {i : Instr} {s t : State} (hs : s.cause = .none) (h : exec i s = .next t) :
    t.cause = .boundsViolation ↔ ∃ a, dataAddress s i = some a ∧ translateAddr s.cfg a = none := by
  rcases exec_cause_cases h with ⟨hcause, ht⟩ | ⟨a, ha, ht, rfl⟩ | ⟨b, rfl, rfl⟩
  · refine iff_of_false (fun e => nomatch (hcause.trans hs).symm.trans e) ?_
    rintro ⟨a, ha, hnone⟩
    exact ht a ha hnone
  · exact iff_of_true rfl ⟨a, ha, ht⟩
  · refine iff_of_false (fun e => nomatch e) ?_
    rintro ⟨a, ha, _⟩
    exact nomatch ha

/-- Settles O41: a step that decodes an instruction ends as the instruction does, and no other step raises BoundsViolation. -/
theorem boundsViolationExactly : Obligations.BoundsViolationExactly := by
  unfold Obligations.BoundsViolationExactly
  refine ⟨fun s t i => exec_boundsViolation_iff, fun s t _ hs h hbv => ?_, fun s t i hs h hne => ?_⟩
  · rcases step_next_cases h with ⟨_, rfl⟩ | ⟨_, _, _, rfl⟩ | ⟨_, _, _, _, rfl⟩ | ⟨i, _, _, _, hd, e⟩
    · exact nomatch hs.symm.trans hbv
    · exact nomatch hs.symm.trans hbv
    · exact nomatch hbv
    · obtain ⟨a, ha, ht⟩ := (exec_boundsViolation_iff hs e).mp hbv
      exact ⟨i, a, hd, ha, ht⟩
  · rcases exec_cause_cases h with ⟨hcause, _⟩ | ⟨_, _, _, rfl⟩ | ⟨b, hb, rfl⟩
    · exact absurd (hcause.trans hs) hne
    · exact ⟨faultEntered_raise s _, .inl rfl⟩
    · exact ⟨faultEntered_raise s _, .inr ⟨b, hb⟩⟩

/-- Settles O44: of what a step can do to `run` and `cause` only the entry of a fault changes `cause`. -/
theorem faultEntryIsPrecise : Obligations.FaultEntryIsPrecise := by
  unfold Obligations.FaultEntryIsPrecise
  refine ⟨faultEntered_raise, fun s t h hne => ?_⟩
  rcases step_status h with ⟨_, rfl⟩ | ⟨_, _, rfl⟩ | ⟨_, _, ⟨_, hcause⟩ | ⟨f, _, rfl⟩⟩
  · exact absurd rfl hne
  · exact absurd rfl hne
  · exact absurd hcause hne
  · exact faultEntered_raise s f

end Machine

end Sys2Proof
end

section
/-! PROOFS. Reset and hazards (`70_reset_and_hazards.md`): the empty image, how a run ends, the zeroed reserved region, and
the steps that change nothing. -/

namespace Sys2Proof.Machine

/-! ### The empty image (R231) -/

/-- Settles O53: the pointer stands at the end of an empty program, where the step halts normally. -/
theorem emptyImageHaltsAtOnce : Obligations.EmptyImageHaltsAtOnce := by
  unfold Obligations.EmptyImageHaltsAtOnce
  intro c hc himage hbytes
  have hend : c.progEnd ≤ ((State.boot c).x .ip).toNat := by
    rw [boot_ip_toNat hbytes, Config.progEnd, Config.progLen, himage]
    exact Nat.le_refl _
  obtain ⟨t, hstep, hrun, hcause, _, hregs, hmem⟩ := endOfProgramHalts (State.boot c) rfl hc hend
  exact ⟨t, hstep, hrun, hcause, hregs, hmem⟩

/-! ### How a run ends (R238) -/

/-- One of the first `k` steps from `s` begins RUNNING with the pointer at or past the end of the program. -/
def ReachesEnd (k : Nat) (s : State) : Prop :=
  ∃ j u, j < k ∧ RunsTo j s u ∧ u.run = .running ∧ u.cfg.progEnd ≤ (u.x .ip).toNat

theorem reachesEnd_of_halted {s : State} (hs : s.run = .halted) (k : Nat) : ¬ ReachesEnd k s := by
  rintro ⟨j, u, _, hj, hu, _⟩
  rw [runsTo_halted hs hj] at hu
  exact nomatch hs.symm.trans hu

theorem reachesEnd_succ_of_atEnd {s : State} (hs : s.run = .running) (hend : s.cfg.progEnd ≤ (s.x .ip).toNat) (k : Nat) :
    ReachesEnd (k + 1) s :=
  ⟨0, s, Nat.succ_pos k, rfl, hs, hend⟩

/-- A step that begins below the end of the program is none of those looked for. -/
theorem reachesEnd_succ_of_lt {s u : State} (hlt : (s.x .ip).toNat < s.cfg.progEnd) (hstep : step s = .next u) (k : Nat) :
    ReachesEnd (k + 1) s ↔ ReachesEnd k u := by
  constructor
  · rintro ⟨j, v, hjk, hj, hv, hend⟩
    cases j with
    | zero =>
      cases hj
      exact absurd hend (Nat.not_le.mpr hlt)
    | succ j =>
      obtain ⟨w, hw, hwv⟩ := hj
      cases hstep.symm.trans hw
      exact ⟨j, v, Nat.lt_of_succ_lt_succ hjk, hwv, hv, hend⟩
  · rintro ⟨j, v, hjk, hj, hv, hend⟩
    exact ⟨j + 1, v, Nat.succ_lt_succ hjk, ⟨u, hstep, hj⟩, hv, hend⟩

/-- A run that begins RUNNING with cause NONE and ends HALTED keeps cause NONE exactly if it met the end of the program. -/
theorem cause_none_iff_reachesEnd {k : Nat} {s t : State} (hs : s.run = .running) (hcause : s.cause = .none)
    (h : RunsTo k s t) (ht : t.run = .halted) : t.cause = .none ↔ ReachesEnd k s := by
  induction k generalizing s with
  | zero =>
    cases h
    exact nomatch hs.symm.trans ht
  | succ k ih =>
    obtain ⟨u, hu, huk⟩ := h
    rcases step_status hu with ⟨hhalt, _⟩ | ⟨_, hend, rfl⟩ | ⟨_, hlt, ⟨hrun, hkeep⟩ | ⟨f, hf, rfl⟩⟩
    · exact nomatch hs.symm.trans hhalt
    · rw [runsTo_halted rfl huk]
      exact iff_of_true hcause (reachesEnd_succ_of_atEnd hs hend k)
    · rw [reachesEnd_succ_of_lt hlt hu]
      exact ih hrun (hkeep.trans hcause) huk
    · rw [runsTo_halted rfl huk, reachesEnd_succ_of_lt hlt hu]
      exact iff_of_false hf (reachesEnd_of_halted rfl k)

/-- Settles O57: an ended run ended normally or in a fault by its cause, which stays NONE only at the end of the program. -/
theorem normalEndExactly : Obligations.NormalEndExactly := by
  unfold Obligations.NormalEndExactly
  intro k s t hs hcause h ht
  have hiff := cause_none_iff_reachesEnd hs hcause h ht
  refine ⟨⟨fun hnormal => hiff.mp hnormal.2, fun hend => ⟨ht, hiff.mpr hend⟩⟩, ?_⟩
  by_cases htc : t.cause = .none
  · exact .inl ⟨ht, htc⟩
  · exact .inr ⟨ht, htc⟩

/-! ### The zeroed reserved region (R234) -/

theorem advance_advance (s : State) (m n : Nat) : (s.advance m).advance n = s.advance (m + n) := by
  simp only [State.advance, setX_setX, x_setX_self, BitVec.ofNat_add, BitVec.add_assoc]

theorem advance_setX_r0 (s : State) (n : Nat) (v : Word) : (s.advance n).setX .r0 v = (s.setX .r0 v).advance n := rfl

/-- The pointer as a number after an advance that does not wrap. -/
theorem advance_ip_toNat {s : State} {n : Nat} (h : (s.x .ip).toNat + n < 2 ^ 32) :
    ((s.advance n).x .ip).toNat = (s.x .ip).toNat + n := by
  rw [advance_ip, BitVec.toNat_add, BitVec.toNat_ofNat, Nat.add_mod_mod, Nat.mod_eq_of_lt h]

/-- Five zero bytes are MOVI `r0`, 0 in either profile. -/
theorem encode_standard_movi_r0_zero (p : Profile) (image : List Byte) :
    encode (Config.standard p image) (.movi .r0 0) = List.replicate 5 0 := by
  cases p <;> rfl

theorem standard_runnable (p : Profile) (image : List Byte) : (Config.standard p image).Runnable :=
  ⟨⟨rfl, rfl⟩, Nat.le_of_eq (standard_memSize p image).symm⟩

/-- The machine runs under default parameters over a reserved region of zeros. -/
structure ZeroedRegion (p : Profile) (image : List Byte) (s : State) : Prop where
  cfg : s.cfg = Config.standard p image
  run : s.run = .running
  zero : ∀ b, b < 262140 → s.ram.read b = 0

namespace ZeroedRegion

variable {p : Profile} {image : List Byte} {s : State}

/-- A step wholly inside the region runs MOVI `r0`, 0. -/
theorem step_eq (hz : ZeroedRegion p image s) (hin : (s.x .ip).toNat + 5 ≤ 262140) :
    step s = .next ((s.setX .r0 0).advance 5) := by
  have henc : encode s.cfg (.movi .r0 0) = List.replicate 5 0 := by rw [hz.cfg, encode_standard_movi_r0_zero]
  have hend : 262140 ≤ s.cfg.progEnd := hz.cfg ▸ Nat.le_add_right _ _
  rw [← exec_movi]
  refine step_encoded hz.run (hz.cfg ▸ standard_runnable p image) ?_ ?_ ?_ fun k hk => ?_
  · rw [hz.cfg]
    cases p <;> rfl
  · rw [henc, List.length_replicate]
  · rw [henc, List.length_replicate]
    exact Nat.le_trans hin hend
  · simp only [henc, List.length_replicate] at hk
    simp only [henc, List.getElem_replicate]
    exact hz.zero _ (by omega)

theorem after_step (hz : ZeroedRegion p image s) : ZeroedRegion p image ((s.setX .r0 0).advance 5) :=
  ⟨by simpa using hz.cfg, by simpa using hz.run, by simpa using hz.zero⟩

/-- One step or more inside the region clear `r0` and move the pointer by five each. -/
theorem runsTo_through (hz : ZeroedRegion p image s) (n : Nat) (hin : (s.x .ip).toNat + 5 * (n + 1) ≤ 262140) :
    RunsTo (n + 1) s ((s.setX .r0 0).advance (5 * (n + 1))) := by
  induction n generalizing s with
  | zero => exact ⟨_, hz.step_eq hin, rfl⟩
  | succ n ih =>
    have hip : (((s.setX .r0 0).advance 5).x .ip).toNat = (s.x .ip).toNat + 5 :=
      advance_ip_toNat (s := s.setX .r0 0) (by rw [x_setX_ne s 0 (by decide)]; omega)
    have hrest := ih hz.after_step (by rw [hip]; omega)
    rw [advance_setX_r0, setX_setX, advance_advance] at hrest
    refine ⟨_, hz.step_eq (by omega), ?_⟩
    rwa [show 5 * (n + 1 + 1) = 5 + 5 * (n + 1) by omega]

end ZeroedRegion

/-- Settles O58: no step, or the effect of one step or more; 52428 steps of five bytes are 262140. -/
theorem zeroedRegionRunsThrough : Obligations.ZeroedRegionRunsThrough := by
  unfold Obligations.ZeroedRegionRunsThrough
  refine ⟨fun p image s a n hcfg hrun hzero ha hin => ?_, fun p image s hcfg hrun hzero hip => ?_⟩
  · cases n with
    | zero => exact ⟨s, rfl, ha, fun h => absurd h (Nat.lt_irrefl 0), fun _ _ _ => rfl, StatusKept.refl s, rfl, rfl⟩
    | succ n =>
      subst ha
      refine ⟨_, ZeroedRegion.runsTo_through ⟨hcfg, hrun, hzero⟩ n hin, ?_, fun _ => ?_, fun r hne hne0 => ?_, ?_, ?_, ?_⟩
      · have hip : (s.setX .r0 0).x .ip = s.x .ip := x_setX_ne s 0 (by decide)
        rw [advance_ip_toNat (by rw [hip]; omega), hip]
      · rw [advance_x_ne _ _ (by decide), x_setX_self]
      · rw [advance_x_ne _ _ hne, x_setX_ne s 0 hne0]
      · exact ⟨rfl, rfl, rfl⟩
      · rfl
      · rfl
  · refine ⟨_, ZeroedRegion.runsTo_through ⟨hcfg, hrun, hzero⟩ 52427 (by rw [hip]; decide), ?_⟩
    rw [advance_ip, x_setX_ne s 0 (by decide), hip]
    rfl

/-! ### Steps that change nothing (R236) -/

theorem raise_ne_of_running {s : State} (hs : s.run = .running) (f : Cause) : s.raise f ≠ s :=
  fun e => nomatch hs.symm.trans (congrArg State.run e).symm

/-- An advance by one to five bytes moves the pointer, also where it wraps. -/
theorem add_ofNat_ne_self (a : Word) {n : Nat} (hpos : 0 < n) (hle : n ≤ 5) : a + BitVec.ofNat 32 n ≠ a := by
  intro e
  have hzero : n % 2 ^ 32 = 0 := congrArg BitVec.toNat (BitVec.add_right_eq_self.mp e)
  omega

/-- A state that has the pointer of `s` is not `s` after an advance. -/
theorem advance_ne_of_ip_eq {s u : State} {n : Nat} (hip : u.x .ip = s.x .ip) (hpos : 0 < n) (hle : n ≤ 5) :
    u.advance n ≠ s := by
  intro e
  have hmoved : u.x .ip + BitVec.ofNat 32 n = s.x .ip := (advance_ip u n).symm.trans (congrArg (·.x .ip) e)
  exact add_ofNat_ne_self _ hpos hle (hip ▸ hmoved)

/-- A conditional jump that changes nothing is taken, to its own address. -/
theorem jump_eq_self {s : State} {p : Prop} [Decidable p] {target : Word} {n : Nat} (hpos : 0 < n) (hle : n ≤ 5)
    (h : (if p then s.setX .ip target else s.advance n) = s) : p ∧ target = s.x .ip := by
  by_cases hp : p
  · rw [if_pos hp] at h
    exact ⟨hp, (x_setX_self s .ip target).symm.trans (congrArg (·.x .ip) h)⟩
  · rw [if_neg hp] at h
    exact absurd h (advance_ne_of_ip_eq rfl hpos hle)

/-- Every instruction but the sentinel has a kind, and so a length. -/
theorem len_pos_of_ne_invalid {i : Instr} (h : ∀ b, i ≠ .invalid b) : 0 < i.len := by
  cases i with
  | invalid b => exact absurd rfl (h b)
  | _ => exact len_pos rfl

/-- An instruction of a RUNNING machine that changes nothing is a jump taken to its own address, or writes the pointer. -/
theorem exec_eq_self_cases {i : Instr} {s : State} (hs : s.run = .running) (h : exec i s = .next s) :
    (∃ rd, i = .je rd (s.x .ip) ∧ s.x rd = s.x .fl) ∨
      (∃ rd, i = .jl rd (s.x .ip) ∧ (s.x rd).toNat < (s.x .fl).toNat) ∨
      (∃ rd, i = .jez rd ∧ s.x rd = 0 ∧ s.x .fl = s.x .ip) ∨ destination i = some .ip := by
  rcases exec_cases i s with ⟨rd, v, hdest, _, _, e⟩ | ⟨target, hdest, hdata, _, _⟩ | ⟨a, v, g, off, hstore, _, _, _, e⟩ |
    ⟨a, _, _, e⟩ | ⟨b, _, e⟩
  · by_cases hrd : rd = .ip
    · exact .inr (.inr (.inr (hrd ▸ hdest)))
    · rw [e, Host.Outcome.next.injEq] at h
      have hip : (s.setX rd v).x .ip = s.x .ip := x_setX_ne s v (Ne.symm hrd)
      have hlen : 0 < i.len := len_pos_of_ne_invalid (by rintro b rfl; exact nomatch hdest)
      exact absurd h (advance_ne_of_ip_eq hip hlen (len_le_five i))
  · cases i with
    | je rd imm =>
      rw [exec_je, Host.Outcome.next.injEq] at h
      obtain ⟨htake, rfl⟩ := jump_eq_self (by decide) (by decide) h
      exact .inl ⟨rd, rfl, htake⟩
    | jl rd imm =>
      rw [exec_jl, Host.Outcome.next.injEq] at h
      obtain ⟨htake, rfl⟩ := jump_eq_self (by decide) (by decide) h
      exact .inr (.inl ⟨rd, rfl, htake⟩)
    | jez rd =>
      rw [exec_jez, Host.Outcome.next.injEq] at h
      obtain ⟨htake, hfl⟩ := jump_eq_self (by decide) (by decide) h
      exact .inr (.inr (.inl ⟨rd, rfl, htake, hfl⟩))
    | invalid b =>
      rw [exec_invalid, Host.Outcome.next.injEq] at h
      exact absurd h (raise_ne_of_running hs _)
    | movi | mov | addi | add | subi | sub | andi | andr | ori | orr | notr | ld => exact nomatch hdest
    | st | stf => exact nomatch hdata
  · rw [e, Host.Outcome.next.injEq] at h
    have hlen : 0 < i.len := len_pos_of_ne_invalid (by rintro b rfl; exact nomatch hstore)
    exact absurd h (advance_ne_of_ip_eq (setArray_x ..) hlen (len_le_five i))
  · rw [e, Host.Outcome.next.injEq] at h
    exact absurd h (raise_ne_of_running hs _)
  · rw [e, Host.Outcome.next.injEq] at h
    exact absurd h (raise_ne_of_running hs _)

/-- Settles O51: a halt or a fault changes `run`, and of the instructions only those named can change nothing. -/
theorem forwardProgress : Obligations.ForwardProgress := by
  unfold Obligations.ForwardProgress
  intro s hs h
  rcases step_next_cases h with ⟨hhalt, _⟩ | ⟨_, _, _, e⟩ | ⟨_, _, _, _, e⟩ | ⟨i, _, _, _, hd, e⟩
  · exact nomatch hs.symm.trans hhalt
  · exact absurd e.symm (raise_ne_of_running hs s.cause)
  · exact absurd e.symm (raise_ne_of_running hs _)
  · exact ⟨i, hd, exec_eq_self_cases hs e⟩

end Sys2Proof.Machine
end
